-- ==== Sys2Proof/Word.lean ====
section
/-! DEFINITION. The word types of the command and response interface (00_scope.md R3) and their plainest arithmetic. -/

namespace Sys2Proof

/-- One raw byte of a sample, or the pole-pair field (30_encoding.md R44). -/
abbrev Byte := BitVec 8

/-- One command word, `CMD_W = 32` bits (30_encoding.md R42). -/
abbrev Word := BitVec 32

/-- A RawSample or `PREV`, `RAW_W = 14` bits (00_scope.md R3, 10_state.md R11). -/
abbrev Raw := BitVec 14

/-- The floor modulus `a mod m` of 00_scope.md section 6: for `m > 0` the unique `r` with
`0 <= r < m` that differs from `a` by a multiple of `m`, also for negative `a`. -/
abbrev floorMod (a m : Int) : Int := a % m

end Sys2Proof
end

