-- ==== Sys2Proof/Syntax.lean ====
section
/-! DEFINITION. The commands of the block, one constructor per row of spec/opcode_table.json, the
exception causes and the response record (30_encoding.md R43, R47, R50). -/

namespace Sys2Proof

/-- The command a word stands for (30_encoding.md R48). Bits the spec calls ignored are no operands
(30_encoding.md R45, R47; log 8). -/
inductive Instr where
  /-- `SKIP`: a polling cycle whose read failed (43_pipeline_commands.md R110). -/
  | skip
  /-- `SAMPLE byte0, byte1, P`: a successful read (43_pipeline_commands.md R106). All 8 bits of `byte0`
  are kept here; that bits 7:6 have no effect is the decoder stage's doing (30_encoding.md R46). -/
  | sample (byte0 byte1 pp : Byte)
  /-- `OP` is `0b10` or `0b11`: illegal, cause 1 (30_encoding.md R47). -/
  | illegalReservedOp
  /-- `OP = 0b01` and `RSV` not 0: illegal, cause 2 (30_encoding.md R47). -/
  | illegalReservedBits
  /-- `OP = 0b01`, `RSV = 0` and `PP = 0`: illegal, cause 3 (30_encoding.md R47). -/
  | illegalZeroPolePairs
deriving DecidableEq, Repr

/-- The causes of `IllegalCommand` (60_exceptions.md R125). -/
inductive Cause where
  | reservedOp
  | reservedBits
  | zeroPolePairs
deriving DecidableEq, Repr

/-- The response record of six fields (30_encoding.md R50), at wrap-count width `w`. -/
structure Response (w : Nat) where
  /-- `ERR`: 0 for a good `SAMPLE`, 1 for an illegal command. -/
  err : Bool
  /-- `CAUSE`: 0 when `ERR = 0`, else the cause code. -/
  cause : BitVec 2
  /-- `RAW`: the RawSample. -/
  raw : Raw
  /-- `STEP`: the detector's step as 2-bit two's complement. -/
  step : BitVec 2
  /-- `UNWRAPPED`: the unwrapped electrical angle in counts, two's complement. -/
  unwrapped : BitVec (w + 14)
  /-- `MECH_NUM`: the numerator of the mechanical angle over `16384 * P`. -/
  mechNum : BitVec 22
deriving DecidableEq, Repr

end Sys2Proof
end

