-- ==== Sys2Proof/WellFormed.lean ====
section
/-! DEFINITION. Which terms of `Instr` are commands (30_encoding.md R44). -/

namespace Sys2Proof

/-- A `SAMPLE` has a pole-pair operand of 1 to 255; every other command has no operand to check
(30_encoding.md R44, R47). -/
def Instr.wellFormed : Instr → Bool
  | .skip => true
  | .sample _ _ pp => pp != 0#8
  | .illegalReservedOp => true
  | .illegalReservedBits => true
  | .illegalZeroPolePairs => true

end Sys2Proof
end

