-- ==== Sys2Proof/Decode.lean ====
section
/-! DEFINITION. Decoding a command word (30_encoding.md R42 to R48) and, after it, encoding one. -/

namespace Sys2Proof

/-! The fields of format C (30_encoding.md R42). -/

/-- `OP = cmd[31:30]`. -/
def opField (cmd : Word) : BitVec 2 := cmd.extractLsb' 30 2

/-- `RSV = cmd[29:24]`. -/
def rsvField (cmd : Word) : BitVec 6 := cmd.extractLsb' 24 6

/-- `PP = cmd[23:16]`. -/
def ppField (cmd : Word) : Byte := cmd.extractLsb' 16 8

/-- `BYTE0 = cmd[15:8]`. -/
def byte0Field (cmd : Word) : Byte := cmd.extractLsb' 8 8

/-- `BYTE1 = cmd[7:0]`. -/
def byte1Field (cmd : Word) : Byte := cmd.extractLsb' 0 8

/-- The decoding procedure of 30_encoding.md R48, total on all 2^32 words; an illegal word is named by
its cause, the causes tested in the order 1, 2, 3 (30_encoding.md R47, 60_exceptions.md R130). -/
def decode (cmd : Word) : Instr :=
  if opField cmd = 0b00#2 then .skip
  else if cmd.getLsbD 31 then .illegalReservedOp
  else if rsvField cmd ≠ 0#6 then .illegalReservedBits
  else if ppField cmd = 0#8 then .illegalZeroPolePairs
  else .sample (byte0Field cmd) (byte1Field cmd) (ppField cmd)

/-- The word of a command, from the same format C. `SKIP` is its canonical word (30_encoding.md R45).
The spec names no canonical word for an illegal row: the model takes the least word of the row
(DESIGN CHOICE, log 7). -/
def encode : Instr → Word
  | .skip => 0x00000000#32
  | .sample byte0 byte1 pp => 0b01#2 ++ 0b000000#6 ++ pp ++ byte0 ++ byte1
  | .illegalReservedOp => 0x80000000#32
  | .illegalReservedBits => 0x41000000#32
  | .illegalZeroPolePairs => 0x40000000#32

/-- The command word whose low `nbits` bits are `w`, every bit above them 0. -/
def wordOfBits (nbits w : Nat) : Word := BitVec.ofNat 32 (w % 2 ^ nbits)

/-- The instruction the decoder reads from a table word. A command is exactly one 32-bit word
(30_encoding.md R42, R49), so bits above the word, or above `nbits`, are refused (log 11). -/
def decodeTableWord (nbits w : Nat) : Option Instr :=
  if nbits ≤ 32 ∧ w < 2 ^ nbits then some (decode (wordOfBits nbits w)) else none

end Sys2Proof
end

