-- ==== Sys2Proof/Config.lean ====
section
/-! DEFINITION. The open parameters of an instance (00_scope.md R3) and the model's free values. The fixed
parameters stand in the types and in the operations: `RAW_W = 14` in `Raw`, `CMD_W = 32` in `Word`,
`PP_W = 8` in `Byte`, `MECH_W = 22` in `Response.mechNum`, `FULL = 16384` and `HALF = 8192` in Ops. -/

namespace Sys2Proof.Config

/-- The default of `WC_W`, which is a model argument, any integer at least 2 (00_scope.md R3). Every state
carries its own width; only `Machine.State.reset`, the one machine the pipeline runs, takes this value
(DESIGN CHOICE, log 1). -/
abbrev wcWDefault : Nat := 32

/-- `LATENCY`: OPEN, any integer at least 0, and no rule depends on it (00_scope.md R3,
70_reset_and_hazards.md R158). A free value that no definition reads (log 2). -/
opaque latency : Nat

/-- What `PREV` holds between power-up and the first reset: a free value (70_reset_and_hazards.md
R148; log 6). No command can read it: `step` faults first. -/
opaque powerUpPrev : Raw

/-- What `WC` holds between power-up and the first reset: a free value at every width (log 6). -/
opaque powerUpWc : (w : Nat) → BitVec w

/-- What `STATUS.OVF` holds between power-up and the first reset: a free value (log 6). -/
opaque powerUpOvf : Bool

/-- What `STATUS.ILL` holds between power-up and the first reset: a free value (log 6). -/
opaque powerUpIll : Bool

/-- What the response port shows between power-up and the first reset: a free value at every width
(log 6). -/
opaque powerUpRsp : (w : Nat) → Option (Response w)

end Sys2Proof.Config
end

