-- ==== Sys2Proof/Machine/State.lean ====
section
/-! DEFINITION. The architectural state (10_state.md), its reset values, and the reasons a step can stop. -/

namespace Sys2Proof.Machine

/-- The four items of architectural state (10_state.md R10; the `State` of 43_pipeline_commands.md
R105), at wrap-count width `w` (`WC_W`, a model argument: 00_scope.md R3). -/
structure Regs (w : Nat) where
  /-- `PREV` (10_state.md R11). -/
  prev : Raw
  /-- `WC`, two's complement (10_state.md R12). -/
  wc : BitVec w
  /-- `STATUS.OVF`, sticky (10_state.md R13). -/
  ovf : Bool
  /-- `STATUS.ILL`, sticky (10_state.md R13). -/
  ill : Bool
deriving DecidableEq, Repr

/-- The registers after reset (10_state.md R20). -/
def Regs.reset (w : Nat) : Regs w := { prev := 0#14, wc := 0#w, ovf := false, ill := false }

/-- What one block of wrap-count width `w` holds: the registers, the response port, the commands
accepted and not yet retired, and what the reset pin does (log 2 to log 6). -/
structure Block (w : Nat) where
  /-- `PREV`, `WC` and `STATUS` (10_state.md R10). -/
  regs : Regs w
  /-- The response port: `none` is `rsp_valid = 0` (30_encoding.md R41, R50; log 4). -/
  rsp : Option (Response w)
  /-- The commands accepted and not yet retired, oldest first (10_state.md R21; log 3). -/
  inFlight : List Word
  /-- The level of the pin `rst` (30_encoding.md R40; log 5). -/
  rst : Bool
  /-- Whether a reset has been seen since power-up (70_reset_and_hazards.md R148; log 6). -/
  everReset : Bool
deriving DecidableEq, Repr

/-- Everything the spec gives the machine, at any wrap-count width: the width the machine was built with,
which no step changes, and what the block holds. A width is meant to be at least 2 (00_scope.md R3;
log 1). -/
structure State where
  /-- `WC_W`, a parameter of the machine and no register (00_scope.md R3; log 1). -/
  width : Nat
  /-- The block of that width. -/
  block : Block width
deriving DecidableEq, Repr

/-- A response with the width of the machine that gave it, so that responses of machines of different
widths can stand in one list (00_scope.md R3). -/
structure SizedResponse where
  /-- `WC_W` of the machine that gave it. -/
  width : Nat
  /-- The record. -/
  rsp : Response width
deriving DecidableEq, Repr

/-- Why the machine stops. -/
inductive Fault where
  /-- Raised by `step` alone: the oldest command in flight was accepted before the first reset after
  power-up, where the registers hold no defined value (70_reset_and_hazards.md R148,
  93_implementation_defined.md U5). Safe: nothing is claimed of such a command. -/
  | commandBeforeReset
deriving DecidableEq, Repr

/-- Why a command has no meaning. No arm of `exec` and no meaning raises a refusal today. -/
inductive Refusal where
  /-- Raised by an arm of `exec` whose instruction is not modelled yet. Safe. -/
  | notModelled (mnemonic : String)
deriving DecidableEq, Repr

/-- A block right after reset, `rst` low again (10_state.md R20, 70_reset_and_hazards.md R145). -/
def Block.reset (w : Nat) : Block w :=
  { regs := Regs.reset w, rsp := none, inFlight := [], rst := false, everReset := true }

/-- A block between power-up and the first reset: the registers and the response port hold free
values (70_reset_and_hazards.md R148; log 6). -/
def Block.powerUp (w : Nat) : Block w :=
  { regs := { prev := Config.powerUpPrev, wc := Config.powerUpWc w, ovf := Config.powerUpOvf,
              ill := Config.powerUpIll }
    rsp := Config.powerUpRsp w, inFlight := [], rst := false, everReset := false }

/-- The machine right after reset, at the default width (00_scope.md R3; log 1). The machine of another
width `w` starts from `⟨w, Block.reset w⟩`. -/
def State.reset : State := { width := Config.wcWDefault, block := Block.reset Config.wcWDefault }

end Sys2Proof.Machine
end

