-- ==== Sys2Proof/Machine/Flags.lean ====
section
/-! DEFINITION. The two sticky flags of `STATUS` (10_state.md R13). -/

namespace Sys2Proof.Machine

/-- `z` is outside the `w`-bit signed range, the condition that sets `STATUS.OVF`
(41_wraparound_detector.md R78). -/
def wcOverflows (w : Nat) (z : Int) : Bool :=
  decide (z < -(2 ^ (w - 1)) ∨ 2 ^ (w - 1) - 1 < z)

/-- A sticky flag after a command that would set it when `set` holds: once 1 it stays 1
(10_state.md R13). -/
def sticky (flag set : Bool) : Bool := flag || set

/-- `STATUS[1:0]`: bit 0 is `OVF`, bit 1 is `ILL` (10_state.md R13). -/
def statusWord {w : Nat} (r : Regs w) : BitVec 2 := BitVec.ofBool r.ill ++ BitVec.ofBool r.ovf

end Sys2Proof.Machine
end

