-- ==== Sys2Proof/Machine/Operands.lean ====
section
/-! DEFINITION. Stage 1, the Angle Decoder (40_angle_decoder.md): the only operand form of the block. -/

namespace Sys2Proof.Machine

/-- The RawSample: `((byte0 & 0x3F) << 8) | byte1` (40_angle_decoder.md R61). -/
def rawSample (byte0 byte1 : Byte) : Raw :=
  ((byte0 &&& 0x3F#8).setWidth 14 <<< 8) ||| byte1.setWidth 14

/-- The pole-pair count `P` of the operand `PP`, an unsigned integer (30_encoding.md R44). -/
def polePairs (pp : Byte) : Nat := pp.toNat

/-- The code of a cause (60_exceptions.md R125). -/
def causeCode : Cause → BitVec 2
  | .reservedOp => 1#2
  | .reservedBits => 2#2
  | .zeroPolePairs => 3#2

end Sys2Proof.Machine
end

