-- ==== Sys2Proof/Machine/Ops.lean ====
section
/-! DEFINITION. The named operations: stages 2 and 3 of `SAMPLE`, taking the exception
`IllegalCommand`, retirement, and what the host and the reset pin do. -/

namespace Sys2Proof.Machine

/-! Stage 2, the wraparound_detector (41_wraparound_detector.md). -/

/-- `wrap_N(z)`: the `N`-bit pattern of an integer (00_scope.md section 6). -/
def wrapTo (n : Nat) (z : Int) : BitVec n := BitVec.ofInt n z

/-- The delta in counts, `d = raw - PREV`, a signed integer (41_wraparound_detector.md R72). -/
def delta (raw prev : Raw) : Int := (raw.toNat : Int) - (prev.toNat : Int)

/-- The step `s`: both comparisons with `HALF = 8192` are
strict (41_wraparound_detector.md R73). -/
def detectorStep (d : Int) : Int :=
  if d > 8192 then -1 else if d < -8192 then 1 else 0

/-- `z = signed(WC) + s`, a mathematical integer (41_wraparound_detector.md R75). -/
def wrapSum {w : Nat} (wc : BitVec w) (s : Int) : Int := wc.toInt + s

/-! Stage 3, the electrical_to_mechanical_scaler (42_electrical_to_mechanical_scaler.md). -/

/-- `u = signed(wc_new) * 16384 + raw` (42_electrical_to_mechanical_scaler.md R87). -/
def unwrappedCounts {w : Nat} (wcNew : BitVec w) (raw : Raw) : Int :=
  wcNew.toInt * 16384 + (raw.toNat : Int)

/-- `n = u mod (16384 * P)` (42_electrical_to_mechanical_scaler.md R90). -/
def mechNumerator (u : Int) (p : Nat) : Int := floorMod u (16384 * (p : Int))

/-! What one command does to the registers, and its response (43_pipeline_commands.md R105). -/

/-- A legal `SAMPLE` (43_pipeline_commands.md R106): the delta uses the old `PREV`, the scaler uses the
new wrap count (43_pipeline_commands.md R107). -/
def sampleEffect {w : Nat} (byte0 byte1 pp : Byte) (r : Regs w) : Regs w × Option (Response w) :=
  let raw := rawSample byte0 byte1
  let s := detectorStep (delta raw r.prev)
  let z := wrapSum r.wc s
  let wcNew := wrapTo w z
  let u := unwrappedCounts wcNew raw
  let n := mechNumerator u (polePairs pp)
  ({ prev := raw, wc := wcNew, ovf := sticky r.ovf (wcOverflows w z), ill := r.ill },
   some { err := false, cause := 0#2, raw := raw, step := wrapTo 2 s,
          unwrapped := wrapTo (w + 14) u, mechNum := wrapTo 22 n })

/-- The response to an illegal command: `ERR = 1`, its cause, and every other field 0
(60_exceptions.md R128). -/
def errorResponse (w : Nat) (c : Cause) : Response w :=
  { err := true, cause := causeCode c, raw := 0#14, step := 0#2, unwrapped := 0#(w + 14),
    mechNum := 0#22 }

/-- Taking the exception, `raise IllegalCommand(cause)`: `STATUS.ILL <- 1` and the error response;
`PREV`, `WC` and `OVF` keep their values, nothing is saved, there is no handler and no return
(60_exceptions.md R128, R131). -/
def raiseIllegal {w : Nat} (c : Cause) (r : Regs w) : Regs w × Option (Response w) :=
  ({ r with ill := true }, some (errorResponse w c))

/-- `SKIP`: no register is read or written, no response (43_pipeline_commands.md R110). -/
def skipEffect {w : Nat} (r : Regs w) : Regs w × Option (Response w) := (r, none)

/-- `SAMPLE` on every operand. A word with `PP = 0` is no `SAMPLE` but the illegal command of cause 3
(30_encoding.md R47), so the scaler never sees `P = 0` (42_electrical_to_mechanical_scaler.md R86); an
ill-formed term acts as that word does (log 12). -/
def sampleOrIllegal {w : Nat} (byte0 byte1 pp : Byte) (r : Regs w) : Regs w × Option (Response w) :=
  if pp = 0#8 then raiseIllegal .zeroPolePairs r else sampleEffect byte0 byte1 pp r

/-! Retirement and the cycles of a step, at every width. -/

/-- All register writes of a command and its response take effect together at its retirement; the
response port shows this command's response or nothing (20_memory.md R29, 30_encoding.md R41). -/
def Block.retire {w : Nat} (b : Block w) (e : Regs w × Option (Response w)) : Block w :=
  { b with regs := e.1, rsp := e.2 }

/-- Retirement on the whole machine: the width stays what it is. -/
def State.retire (s : State) (e : Regs s.width × Option (Response s.width)) : State :=
  { s with block := s.block.retire e }

/-- A cycle with `rst = 1`: all state takes its reset value and every command in flight is discarded
(70_reset_and_hazards.md R145, R146). The pin stays where the host holds it. -/
def Block.resetCycle {w : Nat} (b : Block w) : Block w := { Block.reset w with rst := b.rst }

/-- A cycle in which no command retires: the response port falls back to `rsp_valid = 0`, nothing else
changes (30_encoding.md R41). -/
def Block.idleCycle {w : Nat} (b : Block w) : Block w := { b with rsp := none }

/-- The oldest command in flight, and the block without it (20_memory.md R30). -/
def Block.fetch {w : Nat} (b : Block w) : Option (Word × Block w) :=
  match b.inFlight with
  | [] => none
  | cmd :: rest => some (cmd, { b with inFlight := rest })

/-- The block with `cmd` as the command it retires next, in place of the oldest one in flight, with
the reset pin low and a reset seen (log 3). -/
def Block.placeNext {w : Nat} (b : Block w) (cmd : Word) : Block w :=
  { b with inFlight := cmd :: b.inFlight.tail, rst := false, everReset := true }

/-! The host's side of the ports (30_encoding.md R40, R41). -/

/-- `cmd_ready`: 1 whenever `rst` is 0, whatever the block is doing (30_encoding.md R41). -/
def Block.cmdReady {w : Nat} (b : Block w) : Bool := !b.rst

/-- The host drives `cmd_valid` and `cmd`: the word is accepted when `cmd_valid = 1` and
`cmd_ready = 1`, and is otherwise no command at all (30_encoding.md R41). -/
def Block.accept {w : Nat} (b : Block w) (cmdValid : Bool) (cmd : Word) : Block w :=
  if cmdValid && b.cmdReady then { b with inFlight := b.inFlight ++ [cmd] } else b

/-- The host drives the pin `rst` (70_reset_and_hazards.md R145). -/
def Block.setRst {w : Nat} (b : Block w) (level : Bool) : Block w := { b with rst := level }

end Sys2Proof.Machine
end

