-- ==== Sys2Proof/Machine/Illegal.lean ====
section
/-! DEFINITION. The illegal command words: each takes `IllegalCommand` with its own cause. -/

namespace Sys2Proof.Machine

/-- `OP` is `0b10` or `0b11`: cause 1 (30_encoding.md R47, 60_exceptions.md R128). -/
def execIllegalReservedOp (s : State) : Host.Outcome State Fault Refusal :=
  .next (s.retire (raiseIllegal .reservedOp s.block.regs))

/-- `OP = 0b01` and `RSV` not 0: cause 2 (30_encoding.md R47, 60_exceptions.md R128). -/
def execIllegalReservedBits (s : State) : Host.Outcome State Fault Refusal :=
  .next (s.retire (raiseIllegal .reservedBits s.block.regs))

/-- `OP = 0b01`, `RSV = 0`, `PP = 0`: cause 3 (30_encoding.md R47, 60_exceptions.md R128). -/
def execIllegalZeroPolePairs (s : State) : Host.Outcome State Fault Refusal :=
  .next (s.retire (raiseIllegal .zeroPolePairs s.block.regs))

end Sys2Proof.Machine
end

