-- ==== Sys2Proof/Machine/Sample.lean ====
section
/-! DEFINITION. The command `SAMPLE`. -/

namespace Sys2Proof.Machine

/-- `SAMPLE byte0, byte1, P` (43_pipeline_commands.md R106). -/
def execSample (byte0 byte1 pp : Byte) (s : State) : Host.Outcome State Fault Refusal :=
  .next (s.retire (sampleOrIllegal byte0 byte1 pp s.block.regs))

end Sys2Proof.Machine
end

