-- ==== Sys2Proof/Machine/Skip.lean ====
section
/-! DEFINITION. The command `SKIP`. -/

namespace Sys2Proof.Machine

/-- `SKIP` (43_pipeline_commands.md R110). -/
def execSkip (s : State) : Host.Outcome State Fault Refusal :=
  .next (s.retire (skipEffect s.block.regs))

end Sys2Proof.Machine
end

