-- ==== Sys2Proof/Machine/Dispatch.lean ====
section
/-! DEFINITION. What each command does: one arm per constructor of `Instr`. -/

namespace Sys2Proof.Machine

def exec (i : Instr) (s : State) : Host.Outcome State Fault Refusal :=
  match i with
  | .skip => Sys2Proof.Machine.execSkip s
  | .sample byte0 byte1 pp => Sys2Proof.Machine.execSample byte0 byte1 pp s
  | .illegalReservedOp => Sys2Proof.Machine.execIllegalReservedOp s
  | .illegalReservedBits => Sys2Proof.Machine.execIllegalReservedBits s
  | .illegalZeroPolePairs => Sys2Proof.Machine.execIllegalZeroPolePairs s

end Sys2Proof.Machine
end

