-- ==== Sys2Proof/Machine/Step.lean ====
section
/-! DEFINITION. One step: a reset cycle, an idle cycle, or the retirement of the oldest command in
flight (20_memory.md R30, 70_reset_and_hazards.md R145; log 2). -/

namespace Sys2Proof.Machine

/-- With `rst` high, the reset cycle. Else the oldest command in flight retires, each one seeing the
state the one before it left (20_memory.md R30); with none in flight, an idle cycle. A command
accepted before the first reset is a fault (70_reset_and_hazards.md R148). -/
def step (s : State) : Host.Outcome State Fault Refusal :=
  if s.block.rst then .next { s with block := s.block.resetCycle }
  else
    match s.block.fetch with
    | none => .next { s with block := s.block.idleCycle }
    | some (cmd, b) =>
      if s.block.everReset then exec (decode cmd) { s with block := b } else .fault .commandBeforeReset

/-- `s` with the command word of bits `w` as the one the next step retires (log 3). -/
def State.withFetchWord (s : State) (nbits w : Nat) : State :=
  { s with block := s.block.placeNext (wordOfBits nbits w) }

end Sys2Proof.Machine
end

