-- ==== Sys2Proof/Machine/Assembler.lean ====
section
/-! DEFINITION. The assembler text of 30_encoding.md R55 and R56, one line at a time. -/

namespace Sys2Proof.Machine

/-- One line of a command stream (30_encoding.md R55, R56). -/
inductive AsmLine where
  /-- `SAMPLE b0, b1, pp`. -/
  | sample (b0 b1 pp : Nat)
  /-- `SKIP`. -/
  | skip
  /-- `SAMPLER raw, pp`. -/
  | sampler (raw pp : Nat)
  /-- `SAMPLE4 b0, b1`. -/
  | sample4 (b0 b1 : Nat)
  /-- `NOP`. -/
  | nop
  /-- `.word w`. -/
  | word (w : Word)
  /-- `RESET`: no command, one cycle of `rst = 1`. -/
  | resetMark
deriving DecidableEq, Repr

/-- What a line makes the host do in one cycle. -/
inductive HostAction where
  /-- Present this command word. -/
  | present (cmd : Word)
  /-- Hold `rst = 1` for one cycle. -/
  | reset
deriving DecidableEq, Repr

/-- The word of `SAMPLE b0, b1, pp`, `0x40000000 + pp * 65536 + b0 * 256 + b1`. The assembler refuses
`pp = 0` and `pp > 255` (30_encoding.md R55); bytes above 255 are refused too (log 13). -/
def assembleSample (b0 b1 pp : Nat) : Option HostAction :=
  if 1 ≤ pp ∧ pp ≤ 255 ∧ b0 ≤ 255 ∧ b1 ≤ 255 then
    some (.present (BitVec.ofNat 32 (0x40000000 + pp * 65536 + b0 * 256 + b1)))
  else none

/-- Every line, pseudo-instructions expanded (30_encoding.md R56); `none` is a line the assembler
refuses. -/
def assemble : AsmLine → Option HostAction
  | .sample b0 b1 pp => assembleSample b0 b1 pp
  | .skip => some (.present 0x00000000#32)
  | .sampler raw pp => if raw ≤ 16383 then assembleSample (raw / 256) (raw % 256) pp else none
  | .sample4 b0 b1 => assembleSample b0 b1 4
  | .nop => some (.present 0x00000000#32)
  | .word w => some (.present w)
  | .resetMark => some .reset

end Sys2Proof.Machine
end

