-- ==== Sys2Proof/Machine/Pipeline.lean ====
section
/-! DEFINITION. The total function of 43_pipeline_commands.md R105 at every wrap-count width, and a run
of it over a list of accepted words (43_pipeline_commands.md R117). -/

namespace Sys2Proof.Machine

/-- What a decoded command does to the registers, and its response (43_pipeline_commands.md R105). -/
def commandEffect {w : Nat} (i : Instr) (r : Regs w) : Regs w × Option (Response w) :=
  match i with
  | .skip => skipEffect r
  | .sample byte0 byte1 pp => sampleOrIllegal byte0 byte1 pp r
  | .illegalReservedOp => raiseIllegal .reservedOp r
  | .illegalReservedBits => raiseIllegal .reservedBits r
  | .illegalZeroPolePairs => raiseIllegal .zeroPolePairs r

/-- `exec : State x Word32 -> State x Option Response` (43_pipeline_commands.md R105). -/
def pipelineExec {w : Nat} (r : Regs w) (cmd : Word) : Regs w × Option (Response w) :=
  commandEffect (decode cmd) r

/-- A run: the accepted words applied in order, with the list of responses in order
(43_pipeline_commands.md R117, 20_memory.md R30). -/
def runWords {w : Nat} : Regs w → List Word → Regs w × List (Response w)
  | r, [] => (r, [])
  | r, cmd :: rest =>
    let now := pipelineExec r cmd
    let later := runWords now.1 rest
    (later.1, now.2.toList ++ later.2)

/-- The position the registers stand for, `PREV + 16384 * WC` in counts (41_wraparound_detector.md R79). -/
def Regs.position {w : Nat} (r : Regs w) : Int := unwrappedCounts r.wc r.prev

end Sys2Proof.Machine
end

