-- ==== Sys2Proof/Machine/Clock.lean ====
section
/-! DEFINITION. The clocked view of the block: the input pins sampled at each rising edge, `LATENCY` cycles
from acceptance to retirement, for every latency (30_encoding.md R40, R41; 70_reset_and_hazards.md R145,
R146, R157, R158; log 9). The machine of Step.lean is untimed; this view says that latency and idle
cycles change no result. -/

namespace Sys2Proof.Machine

/-- The input pins at one rising edge of `clk` (30_encoding.md R40). -/
structure Pins where
  rst : Bool
  cmdValid : Bool
  cmd : Word
deriving DecidableEq, Repr

/-- The registers, the response port, and the pipeline: one slot per cycle of `LATENCY`, the slot that
retires next first; an empty slot is a cycle that presented no command. -/
structure Clocked (w : Nat) where
  regs : Regs w
  rsp : Option (Response w)
  pipe : List (Option Word)
deriving DecidableEq, Repr

/-- The block after reset, at latency `latency`: nothing in flight, `rsp_valid = 0` (10_state.md R20). -/
def clockedReset (w latency : Nat) : Clocked w :=
  { regs := Regs.reset w, rsp := none, pipe := List.replicate latency none }

/-- The pins of a cycle in which the host presents nothing. -/
def idlePins : Pins := { rst := false, cmdValid := false, cmd := 0#32 }

/-- What the cycle accepts: a word when `cmd_valid = 1` and `cmd_ready = 1`, that is `rst = 0`
(30_encoding.md R41). -/
def Pins.accepted (p : Pins) : Option Word := if p.cmdValid && !p.rst then some p.cmd else none

/-- One slot reaching its retirement: a command does its work, an empty slot does nothing and leaves
`rsp_valid = 0` (30_encoding.md R41). -/
def retireSlot {w : Nat} (r : Regs w) : Option Word → Regs w × Option (Response w)
  | none => (r, none)
  | some cmd => pipelineExec r cmd

/-- One rising edge of `clk`. With `rst = 1` the state is reset and the pipeline emptied
(70_reset_and_hazards.md R145, R146). Else the cycle's word enters the pipeline and the oldest slot
retires; at latency 0 they are the same slot. -/
def clockTick {w : Nat} (c : Clocked w) (p : Pins) : Clocked w :=
  if p.rst then clockedReset w c.pipe.length
  else
    match c.pipe ++ [p.accepted] with
    | [] => c
    | slot :: rest =>
      { regs := (retireSlot c.regs slot).1, rsp := (retireSlot c.regs slot).2, pipe := rest }

/-- The clocked run, with the responses in order: each edge contributes the response it puts on the port. A
response retired at the edge just before a cycle with `rst = 1` is counted too. The spec does not say whether
its one valid cycle (30_encoding.md R41) is that reset cycle, in which `rsp_valid` is 0
(70_reset_and_hazards.md R145); `Block.visibleRsp` hides it once the pin is high. To count it here is the
model's choice (DESIGN CHOICE, log 15). -/
def clockRun {w : Nat} : Clocked w → List Pins → Clocked w × List (Response w)
  | c, [] => (c, [])
  | c, p :: rest =>
    let now := clockTick c p
    let later := clockRun now rest
    (later.1, now.rsp.toList ++ later.2)

end Sys2Proof.Machine
end

