-- ==== Sys2Proof/Machine/Fleet.lean ====
section
/-! DEFINITION. Several encoders, each served by a pipeline of its own: the product of copies of the total
function of 43_pipeline_commands.md R105, each with its own width, its own commands, its own resets and its
own responses (60_exceptions.md R140, 10_state.md R16). -/

namespace Sys2Proof.Machine

/-- One pipeline of several: the width it was built with, and its registers (00_scope.md R3). -/
structure Pipeline where
  width : Nat
  regs : Regs width
deriving DecidableEq, Repr

/-- What the host can give one pipeline: a command, or a reset of that pipeline alone. -/
inductive PipelineInput where
  | command (cmd : Word)
  /-- Its own reset (60_exceptions.md R140, 70_reset_and_hazards.md R145). -/
  | reset
deriving DecidableEq, Repr

/-- One input at one set of registers: a command is `exec` of 43_pipeline_commands.md R105, a reset brings
the registers of 10_state.md R20 and no response (70_reset_and_hazards.md R145, R146). -/
def inputEffect {w : Nat} (r : Regs w) : PipelineInput → Regs w × Option (Response w)
  | .command cmd => pipelineExec r cmd
  | .reset => (Regs.reset w, none)

/-- One pipeline fed its own list of inputs, with its responses in order. -/
def runInputs {w : Nat} : Regs w → List PipelineInput → Regs w × List (Response w)
  | r, [] => (r, [])
  | r, input :: rest =>
    let now := inputEffect r input
    let later := runInputs now.1 rest
    (later.1, now.2.toList ++ later.2)

/-- Input `input` goes to pipeline `k` alone; the response, if there is one, is that pipeline's. An index
outside the list names no pipeline. -/
def fleetExec (fleet : List Pipeline) (k : Nat) (input : PipelineInput) :
    List Pipeline × List (Nat × SizedResponse) :=
  match fleet[k]? with
  | none => (fleet, [])
  | some p =>
    let now := inputEffect p.regs input
    (fleet.set k { p with regs := now.1 }, now.2.toList.map (fun q => (k, ⟨p.width, q⟩)))

/-- An interleaving of the pipelines' inputs, each with the index of its pipeline, and the responses in
order, each with the index of the pipeline that gave it (60_exceptions.md R140). -/
def fleetRun : List Pipeline → List (Nat × PipelineInput) → List Pipeline × List (Nat × SizedResponse)
  | fleet, [] => (fleet, [])
  | fleet, (k, input) :: rest =>
    let now := fleetExec fleet k input
    let later := fleetRun now.1 rest
    (later.1, now.2 ++ later.2)

end Sys2Proof.Machine
end

