-- ==== Sys2Proof/Machine/Reference.lean ====
section
/-! DEFINITION. The degree-valued functions of the spec, on exact rationals (00_scope.md R4, R5;
41_wraparound_detector.md R70; 42_electrical_to_mechanical_scaler.md R85; 43_pipeline_commands.md R108).
They are functions of the spec and not hardware: no step reads them. -/

namespace Sys2Proof.Machine

/-- `elec_deg(raw) = raw * 360 / 16384` degrees (00_scope.md R4, 40_angle_decoder.md R62). -/
def elecDeg (raw : Raw) : Rat := (raw.toNat : Rat) * 360 / 16384

/-- `mech_deg(n, P) = n * 360 / (16384 * P)` degrees (00_scope.md R4). -/
def mechDeg (n p : Nat) : Rat := (n : Rat) * 360 / (16384 * (p : Rat))

/-- The floor modulus of rationals, `q mod m` for `m > 0` (00_scope.md section 6). -/
def ratMod (q m : Rat) : Rat := q - m * (⌊q / m⌋ : Rat)

/-- DOC's steps 1 to 4 on exact angles: the step, the new wrap count, the new previous angle
(41_wraparound_detector.md R70). -/
def detectRef (e prev : Rat) (w : Int) : Int × Int × Rat :=
  let d := e - prev
  let s : Int := if d > 180 then -1 else if d < -180 then 1 else 0
  (s, w + s, e)

/-- DOC's step 7: bring an angle into [0, 360) (42_electrical_to_mechanical_scaler.md R85). -/
def normaliseRef (m : Rat) : Rat :=
  if m < 0 then m + (⌈-m / 360⌉ : Rat) * 360 else if 360 ≤ m then ratMod m 360 else m

/-- DOC's steps 5 to 7: the unwrapped electrical angle and the normalised mechanical angle
(42_electrical_to_mechanical_scaler.md R85). -/
def scaleRef (e : Rat) (w : Int) (p : Nat) : Rat × Rat :=
  let unwrapped := e + (w : Rat) * 360
  (unwrapped, normaliseRef (unwrapped / (p : Rat)))

/-- DOC's whole step on exact numbers: the new state, the unwrapped angle, the mechanical angle
(43_pipeline_commands.md R108). -/
def unwrapRef (e : Rat) (st : Rat × Int) (p : Nat) : (Rat × Int) × Rat × Rat :=
  let det := detectRef e st.1 st.2
  let sc := scaleRef e det.2.1 p
  ((det.2.2, det.2.1), sc.1, sc.2)

end Sys2Proof.Machine
end

