-- ==== Sys2Proof/Machine/Ports.lean ====
section
/-! DEFINITION. The output ports (30_encoding.md R40, R41, R50; 10_state.md R19). -/

namespace Sys2Proof.Machine

/-- Every output port of 30_encoding.md R40, at wrap-count width `w`. -/
structure OutPorts (w : Nat) where
  cmdReady : Bool
  rspValid : Bool
  rspErr : Bool
  rspCause : BitVec 2
  rspRaw : BitVec 14
  rspStep : BitVec 2
  rspUnwrapped : BitVec (w + 14)
  rspMechNum : BitVec 22
  obsPrev : BitVec 14
  obsWc : BitVec w
  obsStatus : BitVec 2
deriving DecidableEq, Repr

/-- The response on the port this cycle: none while `rst` is high (70_reset_and_hazards.md R145). So a
response left by a retirement is not shown if the host raises `rst` before the next step. The spec does not
say in which cycle such a response would be valid; the clocked run counts it as shown (DESIGN CHOICE,
log 15). -/
def Block.visibleRsp {w : Nat} (b : Block w) : Option (Response w) := if b.rst then none else b.rsp

/-- The output ports of a block. When `rsp_valid = 0` the other `rsp_*` ports are 0 (30_encoding.md
R41); the observation ports show the registers at all times (10_state.md R19). -/
def Block.outPorts {w : Nat} (b : Block w) : OutPorts w :=
  { cmdReady := b.cmdReady
    rspValid := b.visibleRsp.isSome
    rspErr := b.visibleRsp.elim false Response.err
    rspCause := b.visibleRsp.elim 0#2 Response.cause
    rspRaw := b.visibleRsp.elim 0#14 Response.raw
    rspStep := b.visibleRsp.elim 0#2 Response.step
    rspUnwrapped := b.visibleRsp.elim 0#(w + 14) Response.unwrapped
    rspMechNum := b.visibleRsp.elim 0#22 Response.mechNum
    obsPrev := b.regs.prev
    obsWc := b.regs.wc
    obsStatus := statusWord b.regs }

end Sys2Proof.Machine
end

