-- ==== Sys2Proof/Machine/Run.lean ====
section
/-! DEFINITION. What successive steps put on the response port, as a run lists it (43_pipeline_commands.md
R117). -/

namespace Sys2Proof.Machine

/-- The response on the port of a machine, if there is one, with the machine's width. -/
def State.shown (s : State) : List SizedResponse :=
  s.block.visibleRsp.toList.map (SizedResponse.mk s.width)

/-- The responses shown after each of `n` successive steps, in order, up to the first stop
(43_pipeline_commands.md R117, 30_encoding.md R41). -/
def shownResponses : Nat → State → List SizedResponse
  | 0, _ => []
  | n + 1, s =>
    match step s with
    | .next t => t.shown ++ shownResponses n t
    | .fault _ => []
    | .refused _ => []

end Sys2Proof.Machine
end

