-- ==== Sys2Proof/Safety.lean ====
section
/-! DEFINITION. The terms claims about runs are stated in: good states, consistent ports, and the host's
duties as premises (70_reset_and_hazards.md section 3). -/

namespace Sys2Proof.Machine

/-- A good final state: a reset has been seen and neither sticky flag is set
(93_implementation_defined.md U2, U3, U5; 60_exceptions.md R129). -/
def State.good (s : State) : Bool := s.block.everReset && !s.block.regs.ovf && !s.block.regs.ill

/-- A response with `ERR = 0` as 30_encoding.md R50 describes it: no cause, a step that is no `0b10`, the
low 14 bits of both angles equal to `RAW`, and a numerator below `16384 * 255`. -/
def Response.goodShape {w : Nat} (q : Response w) : Prop :=
  q.cause = 0#2 ∧ q.step ≠ 0b10#2 ∧ q.unwrapped.setWidth 14 = q.raw ∧
    q.mechNum.setWidth 14 = q.raw ∧ q.mechNum.toNat < 16384 * 255

/-- A response with `ERR = 1` as 30_encoding.md R50 describes it: a cause, and every other field 0. -/
def Response.errorShape {w : Nat} (q : Response w) : Prop :=
  q.cause ≠ 0#2 ∧ q.raw = 0#14 ∧ q.step = 0#2 ∧ q.unwrapped = 0#(w + 14) ∧ q.mechNum = 0#22

/-- The response port and the registers agree: a good response shows the `PREV` and `WC` its command
left, an error response goes with `STATUS.ILL = 1` (30_encoding.md R50, 60_exceptions.md R128). -/
def Block.PortsConsistent {w : Nat} (b : Block w) : Prop :=
  ∀ q, b.rsp = some q →
    (q.err = false → Response.goodShape q ∧ q.raw = b.regs.prev ∧
      q.unwrapped = b.regs.wc ++ b.regs.prev) ∧
    (q.err = true → Response.errorShape q ∧ b.regs.ill = true)

/-- The invariant every step keeps: the width is a width the block can be built with (00_scope.md R3), the
response port agrees with the registers, and a response is on the port only if a reset has been seen since
power-up (70_reset_and_hazards.md R148; log 6). -/
def State.Inv (s : State) : Prop :=
  2 ≤ s.width ∧ s.block.PortsConsistent ∧ (s.block.rsp ≠ none → s.block.everReset = true)

/-- The wrap count and `OVF` cannot have gone wrong: `t` counts fits the wrap-count range of width `w`
(41_wraparound_detector.md R78, R81). -/
def fitsPosition (w : Nat) (t : Int) : Prop :=
  -(2 ^ (w - 1)) ≤ t / 16384 ∧ t / 16384 < 2 ^ (w - 1)

/-- The host honours its duties from true position `t` to true position `t'` (counts, unbounded): each
`SAMPLE` presents the reading of a true position less than half an electrical turn from the last good
sample's, failed reads are `SKIP`s in between, and no word is illegal (70_reset_and_hazards.md R150 to
R153; 41_wraparound_detector.md R81). -/
def Feeds (w : Nat) : Int → List Word → Int → Prop
  | t, [], t' => t' = t
  | t, cmd :: rest, t' =>
    match decode cmd with
    | .skip => Feeds w t rest t'
    | .sample byte0 byte1 _ =>
      ∃ t1 : Int, ((rawSample byte0 byte1).toNat : Int) = t1 % 16384 ∧ |t1 - t| < 8192 ∧
        fitsPosition w t1 ∧ Feeds w t1 rest t'
    | .illegalReservedOp => False
    | .illegalReservedBits => False
    | .illegalZeroPolePairs => False

/-- The RawSample of the most recent legal `SAMPLE` of a list of words, or `start` if it holds none
(10_state.md R11, R22). -/
def lastRaw (start : Raw) : List Word → Raw
  | [] => start
  | cmd :: rest =>
    match decode cmd with
    | .skip => lastRaw start rest
    | .sample byte0 byte1 _ => lastRaw (rawSample byte0 byte1) rest
    | .illegalReservedOp => lastRaw start rest
    | .illegalReservedBits => lastRaw start rest
    | .illegalZeroPolePairs => lastRaw start rest

/-- A word is illegal when it decodes to one of the three illegal rows (30_encoding.md R47). -/
def isIllegal (cmd : Word) : Bool :=
  match decode cmd with
  | .skip => false
  | .sample _ _ _ => false
  | .illegalReservedOp => true
  | .illegalReservedBits => true
  | .illegalZeroPolePairs => true

/-- The cause code of a word, 0 if it is not illegal (60_exceptions.md R125). -/
def wordCause (cmd : Word) : BitVec 2 :=
  match decode cmd with
  | .skip => 0#2
  | .sample _ _ _ => 0#2
  | .illegalReservedOp => 1#2
  | .illegalReservedBits => 2#2
  | .illegalZeroPolePairs => 3#2

/-- The RawSample a word presents, 0 if it is no legal `SAMPLE` (30_encoding.md R50). -/
def wordRaw (cmd : Word) : Raw :=
  match decode cmd with
  | .skip => 0#14
  | .sample byte0 byte1 _ => rawSample byte0 byte1
  | .illegalReservedOp => 0#14
  | .illegalReservedBits => 0#14
  | .illegalZeroPolePairs => 0#14

/-- A word that is no `SKIP`: exactly these are answered by a response (30_encoding.md R51). -/
def isAnswered (cmd : Word) : Bool := decode cmd != .skip

end Sys2Proof.Machine
end

