-- ==== Sys2Proof/Certificates/Slice0/Obligations.lean ====
section
/-! DEFINITION. The statements for the provers. Each docstring names the rule of spec/ it formalises. Where a
statement is for every width `w`, `w` is `WC_W`, any integer at least 2 (00_scope.md R3), and `⟨w, b⟩` is the machine of
that width holding `b`. -/

open Sys2Proof Sys2Proof.Machine

/-! ### Words: decoding and encoding -/

/-- 30_encoding.md R48: the decoding procedure on the word as a number, and its match and mask forms. -/
def Obligations.DecodeByMatchAndMask : Prop :=
  ∀ cmd : Word,
    decode cmd =
      (if cmd.toNat / 2 ^ 30 = 0 then .skip
       else if cmd.toNat / 2 ^ 31 = 1 then .illegalReservedOp
       else if cmd.toNat / 2 ^ 24 % 64 ≠ 0 then .illegalReservedBits
       else if cmd.toNat / 2 ^ 16 % 256 = 0 then .illegalZeroPolePairs
       else .sample (BitVec.ofNat 8 (cmd.toNat / 256)) (BitVec.ofNat 8 cmd.toNat)
         (BitVec.ofNat 8 (cmd.toNat / 65536))) ∧
    (decode cmd = .skip ↔ cmd &&& 0xC0000000#32 = 0x00000000#32) ∧
    ((∃ byte0 byte1 pp, decode cmd = .sample byte0 byte1 pp) ↔
      cmd &&& 0xFF000000#32 = 0x40000000#32 ∧ cmd &&& 0x00FF0000#32 ≠ 0#32)

/-- 30_encoding.md R47: each cause's words, cause 1 by its range of words and causes 2 and 3 by their masks; an illegal
word is handled with the first cause that applies, at every width; every other word is a `SKIP` or a legal `SAMPLE`. -/
def Obligations.IllegalWordsByCause : Prop :=
  ∀ cmd : Word,
    (decode cmd = .illegalReservedOp ↔ 0x80000000 ≤ cmd.toNat) ∧
    (decode cmd = .illegalReservedBits ↔
      cmd &&& 0xC0000000#32 = 0x40000000#32 ∧ cmd &&& 0x3F000000#32 ≠ 0#32) ∧
    (decode cmd = .illegalZeroPolePairs ↔ cmd &&& 0xFFFF0000#32 = 0x40000000#32) ∧
    (isIllegal cmd = false → decode cmd = .skip ∨
      ∃ byte0 byte1 pp, pp ≠ 0#8 ∧ decode cmd = .sample byte0 byte1 pp) ∧
    (isIllegal cmd = true → ∀ (w : Nat) (b : Block w),
      exec (decode cmd) ⟨w, b⟩ = .next ⟨w, { b with
        regs := { b.regs with ill := true },
        rsp := some ⟨true,
          if 0x80000000 ≤ cmd.toNat then 1#2 else if cmd &&& 0x3F000000#32 ≠ 0#32 then 2#2 else 3#2,
          0#14, 0#2, 0#(w + 14), 0#22⟩ }⟩)

/-- Decode and encode agree on every well-formed command, every operand at every value (30_encoding.md section 2).
The words of the three illegal rows are the model's choice (log 7). -/
def Obligations.DecodeOfEncode : Prop :=
  ∀ i : Instr, i.wellFormed = true → decode (encode i) = i

/-- The other direction (30_encoding.md section 2): the decoder gives well-formed commands only, a `SAMPLE` word is
read without dropping a bit, and any word's command is that of its canonical word (for an illegal row the model's
choice, log 7). -/
def Obligations.EncodeOfDecode : Prop :=
  ∀ cmd : Word,
    (decode cmd).wellFormed = true ∧
    decode (encode (decode cmd)) = decode cmd ∧
    (∀ byte0 byte1 pp, decode cmd = .sample byte0 byte1 pp → encode (decode cmd) = cmd)

/-- A few words written out in the spec decode to the commands the spec gives for them (95_test_vectors.md part 2,
rows K1, K3, K4, K8, K11, K12). -/
def Obligations.SpecWordsDecode : Prop :=
  decode 0x00000000#32 = .skip ∧ decode 0x00043E39#32 = .skip ∧
  decode 0x40043E39#32 = .sample 0x3E#8 0x39#8 4#8 ∧
  decode 0xFFFFFFFF#32 = .illegalReservedOp ∧ decode 0x7F003E39#32 = .illegalReservedBits ∧
  decode 0x40003E39#32 = .illegalZeroPolePairs

/-- 30_encoding.md R46: `cmd[15:14]` have no effect on anything and never make a command illegal; two words with
`OP = 0b01` that differ only there behave identically, response included. -/
def Obligations.TopSampleBitsIgnored : Prop :=
  ∀ (cmd cmd' : Word) (s : State), cmd ||| 0x0000C000#32 = cmd' ||| 0x0000C000#32 →
    cmd &&& 0xC0000000#32 = 0x40000000#32 →
    isIllegal cmd = isIllegal cmd' ∧ exec (decode cmd) s = exec (decode cmd') s

/-- 30_encoding.md R55: the word of `SAMPLE b0, b1, pp`, that it decodes to its operands, and what the assembler
refuses; `SKIP` is the word 0. -/
def Obligations.AssemblerSampleLine : Prop :=
  (∀ b0 b1 pp : Nat, b0 ≤ 255 → b1 ≤ 255 → 1 ≤ pp → pp ≤ 255 →
    ∃ cmd : Word, assemble (.sample b0 b1 pp) = some (.present cmd) ∧
      cmd.toNat = 0x40000000 + pp * 65536 + b0 * 256 + b1 ∧
      decode cmd = .sample (BitVec.ofNat 8 b0) (BitVec.ofNat 8 b1) (BitVec.ofNat 8 pp)) ∧
  (∀ b0 b1 pp : Nat, pp = 0 ∨ 255 < pp → assemble (.sample b0 b1 pp) = none) ∧
  assemble .skip = some (.present 0#32)

/-- 30_encoding.md R56: the pseudo-instructions and their expansions; the bytes of `SAMPLER raw, pp` carry `raw`. -/
def Obligations.AssemblerPseudoLines : Prop :=
  (∀ raw pp : Nat, raw ≤ 16383 → 1 ≤ pp → pp ≤ 255 →
    assemble (.sampler raw pp) = assemble (.sample (raw / 256) (raw % 256) pp) ∧
    ∃ (cmd : Word) (byte0 byte1 p : Byte), assemble (.sampler raw pp) = some (.present cmd) ∧
      cmd.toNat = 0x40000000 + pp * 65536 + raw ∧ decode cmd = .sample byte0 byte1 p ∧
      byte0.toNat < 64 ∧ (rawSample byte0 byte1).toNat = raw ∧ p.toNat = pp) ∧
  (∀ b0 b1 : Nat, assemble (.sample4 b0 b1) = assemble (.sample b0 b1 4)) ∧
  assemble .nop = assemble .skip ∧
  (∀ cmd : Word, assemble (.word cmd) = some (.present cmd)) ∧
  assemble .resetMark = some .reset

/-! ### What each command does to the machine -/

/-- 43_pipeline_commands.md R110 and 30_encoding.md R45: every word with `OP = 0b00`, that is every word up to `0x3FFFFFFF`,
is a `SKIP` and none is illegal; a `SKIP` completes, no register is read or written, no response is produced, and nothing
else of the machine changes; its canonical word is 0. -/
def Obligations.SkipCompletes : Prop :=
  (∀ (w : Nat) (b : Block w), exec .skip ⟨w, b⟩ = .next ⟨w, { b with rsp := none }⟩) ∧
  (∀ cmd : Word, cmd.toNat ≤ 0x3FFFFFFF →
    decode cmd = .skip ∧ isIllegal cmd = false ∧
    ∀ (w : Nat) (b : Block w), exec (decode cmd) ⟨w, b⟩ = .next ⟨w, { b with rsp := none }⟩) ∧
  encode .skip = 0x00000000#32

/-- `SAMPLE` completes for every state of every width and every legal operand, with exactly the effect of the pseudocode
of 43_pipeline_commands.md section 2: `PREV`, `WC` and `OVF` written, `ILL`, the commands in flight and the pins
untouched, a good response. -/
def Obligations.SampleCompletes : Prop :=
  ∀ (byte0 byte1 pp : Byte) (w : Nat) (b : Block w), 2 ≤ w → pp ≠ 0#8 →
    ∃ (t : Block w) (q : Response w) (raw d st z u : Int),
      raw = (byte0.toNat % 64 : Nat) * 256 + (byte1.toNat : Nat) ∧
      d = raw - (b.regs.prev.toNat : Nat) ∧
      st = (if d > 8192 then -1 else if d < -8192 then 1 else 0) ∧
      z = b.regs.wc.toInt + st ∧
      u = t.regs.wc.toInt * 16384 + raw ∧
      exec (.sample byte0 byte1 pp) ⟨w, b⟩ = .next ⟨w, t⟩ ∧
      ((t.regs.prev.toNat : Nat) : Int) = raw ∧ t.regs.wc = BitVec.ofInt w z ∧
      t.regs.ovf = (b.regs.ovf || decide (z < -(2 ^ (w - 1)) ∨ 2 ^ (w - 1) - 1 < z)) ∧
      t.regs.ill = b.regs.ill ∧
      t.rsp = some q ∧ q.err = false ∧ q.cause = 0#2 ∧ q.raw = t.regs.prev ∧ q.step.toInt = st ∧
      q.unwrapped.toInt = u ∧ ((q.mechNum.toNat : Nat) : Int) = u % (16384 * (pp.toNat : Nat)) ∧
      t.inFlight = b.inFlight ∧ t.rst = b.rst ∧ t.everReset = b.everReset

/-- 43_pipeline_commands.md R106 read from the word: encoding, operands, reads, writes, flags and response of every
legal `SAMPLE` word, at every width. -/
def Obligations.SampleWordCompletes : Prop :=
  ∀ (cmd : Word) (w : Nat) (b : Block w), 2 ≤ w →
    cmd &&& 0xFF000000#32 = 0x40000000#32 → cmd &&& 0x00FF0000#32 ≠ 0#32 →
    ∃ (t : Block w) (q : Response w) (raw d st z u p : Int),
      raw = (cmd.toNat / 256 % 64 : Nat) * 256 + (cmd.toNat % 256 : Nat) ∧
      p = (cmd.toNat / 65536 % 256 : Nat) ∧
      d = raw - (b.regs.prev.toNat : Nat) ∧
      st = (if d > 8192 then -1 else if d < -8192 then 1 else 0) ∧
      z = b.regs.wc.toInt + st ∧
      u = t.regs.wc.toInt * 16384 + raw ∧
      exec (decode cmd) ⟨w, b⟩ = .next ⟨w, t⟩ ∧
      ((t.regs.prev.toNat : Nat) : Int) = raw ∧ t.regs.wc = BitVec.ofInt w z ∧
      t.regs.ovf = (b.regs.ovf || decide (z < -(2 ^ (w - 1)) ∨ 2 ^ (w - 1) - 1 < z)) ∧
      t.regs.ill = b.regs.ill ∧
      t.rsp = some q ∧ q.err = false ∧ q.cause = 0#2 ∧ q.raw = t.regs.prev ∧ q.step.toInt = st ∧
      q.unwrapped.toInt = u ∧ ((q.mechNum.toNat : Nat) : Int) = u % (16384 * p) ∧
      t.inFlight = b.inFlight ∧ t.rst = b.rst ∧ t.everReset = b.everReset

/-- 60_exceptions.md R128: each of the three illegal commands completes by taking `IllegalCommand` with its cause:
`STATUS.ILL` becomes 1, the response is `ERR = 1` with the cause and 0 in every other field, and nothing else of the
machine changes (`PREV`, `WC`, `OVF`, the commands in flight, the pins). -/
def Obligations.IllegalCommandsComplete : Prop :=
  ∀ (w : Nat) (b : Block w),
    exec .illegalReservedOp ⟨w, b⟩ = .next ⟨w, { b with
      regs := { b.regs with ill := true },
      rsp := some ⟨true, 1#2, 0#14, 0#2, 0#(w + 14), 0#22⟩ }⟩ ∧
    exec .illegalReservedBits ⟨w, b⟩ = .next ⟨w, { b with
      regs := { b.regs with ill := true },
      rsp := some ⟨true, 2#2, 0#14, 0#2, 0#(w + 14), 0#22⟩ }⟩ ∧
    exec .illegalZeroPolePairs ⟨w, b⟩ = .next ⟨w, { b with
      regs := { b.regs with ill := true },
      rsp := some ⟨true, 3#2, 0#14, 0#2, 0#(w + 14), 0#22⟩ }⟩

/-- A `SAMPLE` term with `pp = 0` is not a legal `SAMPLE`; it acts as the illegal command its word decodes to, so no
`SAMPLE` ever divides by zero (42_electrical_to_mechanical_scaler.md section 2). The model's choice for an ill-formed
term, log 12. -/
def Obligations.ZeroPolePairsIsIllegal : Prop :=
  ∀ (byte0 byte1 : Byte) (s : State),
    decode (encode (.sample byte0 byte1 0#8)) = .illegalZeroPolePairs ∧
    exec (.sample byte0 byte1 0#8) s = exec .illegalZeroPolePairs s

/-- 43_pipeline_commands.md section 1: on the machine of any width, each command is the function of R105 at that width, and
it always completes; a command changes the registers and the response port and nothing else. -/
def Obligations.ExecIsThePipelineFunction : Prop :=
  ∀ (w : Nat) (b : Block w) (cmd : Word),
    exec (decode cmd) ⟨w, b⟩ =
      .next ⟨w, { b with regs := (pipelineExec b.regs cmd).1, rsp := (pipelineExec b.regs cmd).2 }⟩

/-! ### Steps -/

/-- A step runs the decoded command: with `rst` low and a reset seen, `step` is `exec` of the oldest word in flight, on
the machine without that word (20_memory.md section 5; the form of `step` is the model's, log 2 and log 3). -/
def Obligations.StepRunsDecodedCommand : Prop :=
  ∀ (w : Nat) (b : Block w) (cmd : Word) (rest : List Word),
    b.rst = false → b.everReset = true → b.inFlight = cmd :: rest →
    step ⟨w, b⟩ = exec (decode cmd) ⟨w, { b with inFlight := rest }⟩

/-- The word placed by `withFetchWord` is the one the next step runs, on the machine without the oldest command in flight,
the reset pin low and a reset seen. The placement is the model's form of an acceptance (log 3). -/
def Obligations.FetchWordRunsNext : Prop :=
  ∀ (w : Nat) (b : Block w) (n : Nat), n < 2 ^ 32 →
    decodeTableWord 32 n = some (decode (BitVec.ofNat 32 n)) ∧
    step (State.withFetchWord ⟨w, b⟩ 32 n) =
      exec (decode (BitVec.ofNat 32 n))
        ⟨w, { b with inFlight := b.inFlight.tail, rst := false, everReset := true }⟩

/-- The command port (30_encoding.md section 1): with `rst = 0` every word presented is accepted, behind those already in
flight, and nothing else changes; a cycle with `cmd_valid = 0` is no command at all. -/
def Obligations.AcceptedWordsQueueInOrder : Prop :=
  ∀ (w : Nat) (b : Block w) (cmd : Word), b.accept false cmd = b ∧
    (b.rst = false → b.accept true cmd = { b with inFlight := b.inFlight ++ [cmd] })

/-- With nothing in flight a step only lets the response port fall back to `rsp_valid = 0` (30_encoding.md section 1; an
idle step is the model's form of a cycle in which nothing retires, log 2). -/
def Obligations.IdleStepOnlyClearsResponse : Prop :=
  ∀ (w : Nat) (b : Block w), b.rst = false → b.inFlight = [] →
    step ⟨w, b⟩ = .next ⟨w, { b with rsp := none }⟩

/-- 70_reset_and_hazards.md R145: in a cycle with `rst = 1` all state takes its reset value, `cmd_ready` and `rsp_valid`
are 0 and no command is accepted; the first cycle with `rst = 0` can accept a command. -/
def Obligations.ResetCycle : Prop :=
  ∀ (w : Nat) (b : Block w), b.rst = true →
    b.outPorts.cmdReady = false ∧ b.outPorts.rspValid = false ∧
    (∀ (valid : Bool) (cmd : Word), b.accept valid cmd = b) ∧
    ∃ t : Block w, step ⟨w, b⟩ = .next ⟨w, t⟩ ∧ t.regs = ⟨0#14, 0#w, false, false⟩ ∧ t.rsp = none ∧
      t.inFlight = [] ∧ t.rst = true ∧
      ∀ cmd : Word, ((t.setRst false).accept true cmd).inFlight = [cmd]

/-- One reset cycle brings any state, the one at power-up among them, to the reset state of its width once the pin is low
again (70_reset_and_hazards.md sections 1 and 2). That the reset state has the pin low and a reset seen is the model's
choice (log 5, log 6). -/
def Obligations.ResetReachesResetState : Prop :=
  ∀ (w : Nat) (b : Block w),
    ∃ t : Block w, step ⟨w, b.setRst true⟩ = .next ⟨w, t⟩ ∧ t.setRst false = Block.reset w

/-- A command that would retire before any reset since power-up is a fault, and only such a command is
(70_reset_and_hazards.md section 1). The model raises the fault when the command would retire and not when it is accepted,
so that one still in flight when a reset arrives is discarded without a fault (log 6, DEDUCED). Every step of a machine
that has seen a reset, or whose reset pin is high, or that has nothing in flight, has a next state. -/
def Obligations.OnlyCommandsBeforeResetFault : Prop :=
  ∀ (w : Nat) (b : Block w),
    (b.everReset = true ∨ b.rst = true ∨ b.inFlight = [] → ∃ t : Block w, step ⟨w, b⟩ = .next ⟨w, t⟩) ∧
    (b.everReset = false → b.rst = false → b.inFlight ≠ [] → step ⟨w, b⟩ = .fault .commandBeforeReset)

/-- 10_state.md R20: the state after reset, at every width, and of `State.reset`. -/
def Obligations.ResetState : Prop :=
  (∀ w : Nat, (Block.reset w).regs.prev = 0#14 ∧ (Block.reset w).regs.wc = 0#w ∧
    (Block.reset w).regs.ovf = false ∧ (Block.reset w).regs.ill = false ∧
    (Block.reset w).inFlight = [] ∧ (Block.reset w).outPorts.rspValid = false) ∧
  State.reset.block.regs = ⟨0#14, 0#_, false, false⟩ ∧ State.reset.block.inFlight = [] ∧
  State.reset.block.outPorts.rspValid = false

/-- The ports (30_encoding.md section 1, 10_state.md section 5), at every width: the observation ports show the registers;
with `rsp_valid = 0` the other response ports are 0; with a response on the port they show its fields. -/
def Obligations.PortsShowState : Prop :=
  ∀ (w : Nat) (b : Block w),
    b.outPorts.obsPrev = b.regs.prev ∧ b.outPorts.obsWc = b.regs.wc ∧
    b.outPorts.obsStatus.getLsbD 0 = b.regs.ovf ∧ b.outPorts.obsStatus.getLsbD 1 = b.regs.ill ∧
    b.outPorts.cmdReady = !b.rst ∧
    (b.outPorts.rspValid = false →
      b.outPorts.rspErr = false ∧ b.outPorts.rspCause = 0#2 ∧ b.outPorts.rspRaw = 0#14 ∧
      b.outPorts.rspStep = 0#2 ∧ b.outPorts.rspUnwrapped = 0#(w + 14) ∧ b.outPorts.rspMechNum = 0#22) ∧
    (∀ q, b.rst = false → b.rsp = some q →
      b.outPorts.rspValid = true ∧ b.outPorts.rspErr = q.err ∧ b.outPorts.rspCause = q.cause ∧
      b.outPorts.rspRaw = q.raw ∧ b.outPorts.rspStep = q.step ∧
      b.outPorts.rspUnwrapped = q.unwrapped ∧ b.outPorts.rspMechNum = q.mechNum)

/-- The invariant that every step keeps, from any state of any width that has it (30_encoding.md section 4,
60_exceptions.md section 2): the response on the port has the shape of a good or an error response and agrees with the
registers (the low 14 bits of `MECH_NUM` are those of 42_electrical_to_mechanical_scaler.md section 2), and nothing
responds before the first reset (70_reset_and_hazards.md section 1, by the model's own field `everReset`, log 6). -/
def Obligations.StepKeepsInvariant : Prop :=
  ∀ s t : State, s.Inv → step s = .next t → t.Inv

/-- The reset state has the invariant, at every width the block can be built with (10_state.md section 7). -/
def Obligations.ResetHasInvariant : Prop :=
  State.reset.Inv ∧ ∀ w : Nat, 2 ≤ w → State.Inv ⟨w, Block.reset w⟩

/-- The sticky flags (10_state.md section 4, 60_exceptions.md section 2): only a reset cycle clears one. -/
def Obligations.OnlyResetClearsStickyFlags : Prop :=
  ∀ s t : State, step s = .next t →
    (s.block.regs.ovf = true ∧ t.block.regs.ovf = false ∨
      s.block.regs.ill = true ∧ t.block.regs.ill = false) →
    s.block.rst = true

/-- Running the machine on the commands in flight, one step each, is the run of 43_pipeline_commands.md section 4 over
the same words (20_memory.md section 5): each command sees the registers the one before it left, and the responses shown
after the successive steps are the responses of the run, in order. That a command takes one step, and that the commands
in flight are a list of words, is the model's choice (log 2, log 3). -/
def Obligations.StepsRetireInOrder : Prop :=
  ∀ (w : Nat) (b : Block w), b.rst = false → b.everReset = true →
    (∃ t : Block w, Sys2Proof.core.run b.inFlight.length ⟨w, b⟩ = .next ⟨w, t⟩ ∧
      t.regs = (runWords b.regs b.inFlight).1 ∧ t.inFlight = [] ∧ t.rst = false ∧ t.everReset = true) ∧
    shownResponses b.inFlight.length ⟨w, b⟩ =
      (runWords b.regs b.inFlight).2.map (SizedResponse.mk w)

/-! ### Stage 1 -/

/-- 40_angle_decoder.md R61: the three forms of the RawSample. -/
def Obligations.RawSampleForms : Prop :=
  ∀ byte0 byte1 : Byte,
    rawSample byte0 byte1 = ((byte0.setWidth 14 &&& 0x3F#14) <<< 8 ||| byte1.setWidth 14) ∧
    (rawSample byte0 byte1).toNat = byte0.toNat % 64 * 256 + byte1.toNat ∧
    rawSample byte0 byte1 = byte0.extractLsb' 0 6 ++ byte1

/-- 40_angle_decoder.md R66: four byte pairs to each RawSample; the electrical angle is injective and strictly
increasing. -/
def Obligations.RawSampleFourToOne : Prop :=
  (∀ byte0 byte1 byte0' byte1' : Byte, rawSample byte0 byte1 = rawSample byte0' byte1' ↔
    byte0.toNat % 64 = byte0'.toNat % 64 ∧ byte1 = byte1') ∧
  (∀ raw raw' : Raw, elecDeg raw < elecDeg raw' ↔ raw.toNat < raw'.toNat) ∧
  (∀ raw raw' : Raw, elecDeg raw = elecDeg raw' → raw = raw')

/-- 40_angle_decoder.md R63: the range of the decoder's outputs, with the least and the greatest angle. -/
def Obligations.ElectricalAngleRange : Prop :=
  (∀ byte0 byte1 : Byte, (rawSample byte0 byte1).toNat ≤ 16383 ∧
    0 ≤ elecDeg (rawSample byte0 byte1) ∧ elecDeg (rawSample byte0 byte1) < 360 ∧
    elecDeg (rawSample byte0 byte1) ≤ 737235 / 2048) ∧
  elecDeg 0#14 = 0 ∧ elecDeg 16383#14 = 737235 / 2048

/-! ### Stage 2 -/

/-- 41_wraparound_detector.md R72 and R73: the delta in counts, its range and the degrees it stands for; the step on every
delta the detector can see, with the response's `STEP` field. -/
def Obligations.DetectorStepRule : Prop :=
  ∀ raw prev : Raw,
    delta raw prev = (raw.toNat : Int) - (prev.toNat : Int) ∧
    (-16383 ≤ delta raw prev ∧ delta raw prev ≤ 16383) ∧
    elecDeg raw - elecDeg prev = (delta raw prev : Rat) * 45 / 2048 ∧
    (8192 < delta raw prev → detectorStep (delta raw prev) = -1) ∧
    (delta raw prev < -8192 → detectorStep (delta raw prev) = 1) ∧
    (-8192 ≤ delta raw prev → delta raw prev ≤ 8192 → detectorStep (delta raw prev) = 0) ∧
    (wrapTo 2 (detectorStep (delta raw prev))).toInt = detectorStep (delta raw prev)

/-- The step in counts is DOC's rule in degrees (41_wraparound_detector.md sections 1 and 2). -/
def Obligations.DetectorMatchesDegreeRule : Prop :=
  ∀ (raw prev : Raw) (count : Int),
    detectRef (elecDeg raw) (elecDeg prev) count =
      (detectorStep (delta raw prev), count + detectorStep (delta raw prev), elecDeg raw)

/-- The wrap-count update and the two ends of its range (41_wraparound_detector.md R75 and section 3), at every width: the
step is the detector's; the register takes the pattern of the mathematical sum, the scaler sees the new count in both its
outputs; away from the ends the count moves by the step and `OVF` keeps its value; at an end it wraps to the other and
`OVF` is set, and the command still completes with a good response. -/
def Obligations.WrapCountUpdateAndOverflow : Prop :=
  ∀ (w : Nat) (byte0 byte1 pp : Byte) (r r' : Regs w) (q : Response w), 2 ≤ w → pp ≠ 0#8 →
    commandEffect (.sample byte0 byte1 pp) r = (r', some q) →
    q.err = false ∧ r'.prev = rawSample byte0 byte1 ∧
    q.step.toInt = detectorStep (delta (rawSample byte0 byte1) r.prev) ∧
    r'.wc = BitVec.ofInt w (r.wc.toInt + q.step.toInt) ∧ q.unwrapped = r'.wc ++ r'.prev ∧
    ((q.mechNum.toNat : Nat) : Int) =
      (r'.wc.toInt * 16384 + (r'.prev.toNat : Int)) % (16384 * (pp.toNat : Int)) ∧
    (if r.wc.toInt = 2 ^ (w - 1) - 1 ∧ q.step = 1#2 then
      r'.wc.toInt = -2 ^ (w - 1) ∧ r'.ovf = true
    else if r.wc.toInt = -2 ^ (w - 1) ∧ q.step = 3#2 then
      r'.wc.toInt = 2 ^ (w - 1) - 1 ∧ r'.ovf = true
    else r'.wc.toInt = r.wc.toInt + q.step.toInt ∧ r'.ovf = r.ovf)

/-- 10_state.md R15: a `SAMPLE` changes `WC` by exactly the detector's step, which is -1, 0 or +1 and other than 0 only for a
delta greater than 8192 counts in magnitude; every other command leaves `WC` as it is; the change is that step as an
integer except at the ends of the range, where the register wraps and `OVF` is set. -/
def Obligations.WrapCountMovesByAtMostOne : Prop :=
  ∀ (w : Nat) (r : Regs w) (cmd : Word), 2 ≤ w →
    ∃ st : Int, (st = -1 ∨ st = 0 ∨ st = 1) ∧
      (∀ byte0 byte1 pp, decode cmd = .sample byte0 byte1 pp →
        st = detectorStep (delta (rawSample byte0 byte1) r.prev)) ∧
      ((∀ byte0 byte1 pp, decode cmd ≠ .sample byte0 byte1 pp) → st = 0) ∧
      (pipelineExec r cmd).1.wc = BitVec.ofInt w (r.wc.toInt + st) ∧
      (st ≠ 0 → ∃ byte0 byte1 pp, decode cmd = .sample byte0 byte1 pp ∧
        8192 < |((rawSample byte0 byte1).toNat : Int) - (r.prev.toNat : Int)|) ∧
      (if r.wc.toInt = 2 ^ (w - 1) - 1 ∧ st = 1 then
        (pipelineExec r cmd).1.wc.toInt = -2 ^ (w - 1) ∧ (pipelineExec r cmd).1.ovf = true
      else if r.wc.toInt = -2 ^ (w - 1) ∧ st = -1 then
        (pipelineExec r cmd).1.wc.toInt = 2 ^ (w - 1) - 1 ∧ (pipelineExec r cmd).1.ovf = true
      else (pipelineExec r cmd).1.wc.toInt = r.wc.toInt + st)

/-- The unwrapped position moves by at most half an electrical turn per `SAMPLE`, by `d - 16384`, `d + 16384` or `d`
(41_wraparound_detector.md section 4), away from the overflow. -/
def Obligations.PositionMovesAtMostHalfTurn : Prop :=
  ∀ (w : Nat) (byte0 byte1 pp : Byte) (r r' : Regs w) (q : Response w), 2 ≤ w → pp ≠ 0#8 →
    commandEffect (.sample byte0 byte1 pp) r = (r', some q) →
    wcOverflows w (r.wc.toInt + q.step.toInt) = false →
    |r'.position - r.position| ≤ 8192 ∧
    (8192 < delta r'.prev r.prev → r'.position - r.position = delta r'.prev r.prev - 16384) ∧
    (delta r'.prev r.prev < -8192 → r'.position - r.position = delta r'.prev r.prev + 16384) ∧
    (-8192 ≤ delta r'.prev r.prev → delta r'.prev r.prev ≤ 8192 →
      r'.position - r.position = delta r'.prev r.prev)

/-- The start-up transient (41_wraparound_detector.md section 4), at every width: the first `SAMPLE` after reset decrements the
wrap count exactly when its RawSample is above 8192, and goes through the ordinary rules. -/
def Obligations.FirstSampleTransient : Prop :=
  ∀ (w : Nat) (byte0 byte1 pp : Byte), 2 ≤ w → pp ≠ 0#8 →
    ∃ (t : Block w) (q : Response w), exec (.sample byte0 byte1 pp) ⟨w, Block.reset w⟩ = .next ⟨w, t⟩ ∧
      t.rsp = some q ∧ t.regs.prev = rawSample byte0 byte1 ∧ t.regs.ovf = false ∧ t.regs.ill = false ∧
      t.regs.wc.toInt = (if 8192 < (rawSample byte0 byte1).toNat then -1 else 0) ∧
      ((q.mechNum.toNat : Nat) : Int) =
        (((rawSample byte0 byte1).toNat : Int) + t.regs.wc.toInt * 16384) % (16384 * (pp.toNat : Nat))

/-- 41_wraparound_detector.md R81, the correctness of the wrap count under the sampling-rate condition, failed reads
(`SKIP`) in between allowed (70_reset_and_hazards.md section 3): if the registers stand for the true position `t` and the
host feeds the block honestly up to true position `t'`, then the registers stand for `t'`. -/
def Obligations.WrapCountTracksTruePosition : Prop :=
  ∀ (w : Nat) (r : Regs w) (cmds : List Word) (t t' : Int), 2 ≤ w →
    r.position = t → Feeds w t cmds t' →
    (runWords r cmds).1.position = t' ∧ (runWords r cmds).1.wc.toInt = t' / 16384 ∧
    ((runWords r cmds).1.prev.toNat : Int) = t' % 16384 ∧
    (runWords r cmds).1.ovf = r.ovf ∧ (runWords r cmds).1.ill = r.ill

/-! ### Stage 3 -/

/-- 42_electrical_to_mechanical_scaler.md R89: DOC's step 7 is the floor modulus, for every rational. -/
def Obligations.NormalisationIsFloorModulus : Prop :=
  (∀ m : Rat, normaliseRef m = ratMod m 360 ∧ 0 ≤ normaliseRef m ∧ normaliseRef m < 360 ∧
    ∃ k : Int, normaliseRef m = m + 360 * (k : Rat)) ∧
  normaliseRef (-360) = 0

/-- 42_electrical_to_mechanical_scaler.md R87: the unwrapped angle is the concatenation of the wrap count and the RawSample,
always fits its field, and stands for DOC's unwrapped angle in degrees. -/
def Obligations.UnwrappedIsConcatenation : Prop :=
  ∀ (w : Nat) (wc : BitVec w) (raw : Raw), 2 ≤ w →
    unwrappedCounts wc raw = wc.toInt * 16384 + (raw.toNat : Int) ∧
    wrapTo (w + 14) (unwrappedCounts wc raw) = wc ++ raw ∧
    -2 ^ (w + 13) ≤ unwrappedCounts wc raw ∧ unwrappedCounts wc raw ≤ 2 ^ (w + 13) - 1 ∧
    (unwrappedCounts wc raw : Rat) * 45 / 2048 = elecDeg raw + (wc.toInt : Rat) * 360

/-- 42_electrical_to_mechanical_scaler.md R91: the form without a wide modulus, and its form for a power of two. -/
def Obligations.MechNumNarrowForm : Prop :=
  ∀ (w : Nat) (wc : BitVec w) (raw : Raw) (pp : Byte), 2 ≤ w → pp ≠ 0#8 →
    mechNumerator (unwrappedCounts wc raw) (polePairs pp) =
      wc.toInt % (pp.toNat : Int) * 16384 + (raw.toNat : Int) ∧
    (∀ k : Nat, k ≤ w → pp.toNat = 2 ^ k →
      mechNumerator (unwrappedCounts wc raw) (polePairs pp) =
        ((wc.toNat % 2 ^ k * 16384 + raw.toNat : Nat) : Int) ∧
      mechNumerator (unwrappedCounts wc raw) (polePairs pp) =
        (((wc ++ raw).toNat % 2 ^ (14 + k) : Nat) : Int))

/-- 42_electrical_to_mechanical_scaler.md R93 and R94: the numerator fits its 22 bits and the mechanical angle is in
[0, 360), 0 exactly when the numerator is 0; its largest value is `360 - 45 / (2048 * P)`, attained by the RawSample 16383 at
wrap count -1. -/
def Obligations.MechanicalAngleRange : Prop :=
  (∀ (w : Nat) (wc : BitVec w) (raw : Raw) (pp : Byte) (n : Nat), pp ≠ 0#8 →
    (n : Int) = mechNumerator (unwrappedCounts wc raw) (polePairs pp) →
    (wrapTo 22 (mechNumerator (unwrappedCounts wc raw) (polePairs pp))).toNat = n ∧
    n < 16384 * pp.toNat ∧ n < 4177920 ∧
    0 ≤ mechDeg n pp.toNat ∧ mechDeg n pp.toNat < 360 ∧ (mechDeg n pp.toNat = 0 ↔ n = 0) ∧
    mechDeg n pp.toNat ≤ 360 - 45 / (2048 * (pp.toNat : Rat))) ∧
  (∀ (w : Nat) (pp : Byte), 2 ≤ w → pp ≠ 0#8 →
    mechNumerator (unwrappedCounts (BitVec.ofInt w (-1)) 16383#14) (polePairs pp) =
      ((16384 * pp.toNat - 1 : Nat) : Int) ∧
    mechDeg (16384 * pp.toNat - 1) pp.toNat = 360 - 45 / (2048 * (pp.toNat : Rat)))

/-- 42_electrical_to_mechanical_scaler.md R90: the numerator is DOC's step 7 exactly. -/
def Obligations.ScalerMatchesReference : Prop :=
  ∀ (w : Nat) (wc : BitVec w) (raw : Raw) (pp : Byte), pp ≠ 0#8 →
    ∃ n : Nat, (n : Int) = unwrappedCounts wc raw % (16384 * (pp.toNat : Int)) ∧
      mechNumerator (unwrappedCounts wc raw) (polePairs pp) = n ∧ n < 16384 * pp.toNat ∧
      scaleRef (elecDeg raw) wc.toInt pp.toNat =
        ((unwrappedCounts wc raw : Rat) * 45 / 2048, mechDeg n pp.toNat)

/-- 42_electrical_to_mechanical_scaler.md R97: the output depends on the wrap count only modulo `P`; `P` wraps bring it back;
one wrap shifts it by `360 / P` degrees; for `P` dividing `2^WC_W` an overflow does not disturb it, for any other `P` it does,
and an overflow always disturbs `UNWRAPPED`. -/
def Obligations.OutputDependsOnWrapCountModP : Prop :=
  ∀ (w : Nat) (raw : Raw) (pp : Byte), 2 ≤ w → pp ≠ 0#8 →
    (∀ wc wc' : BitVec w, wc.toInt % (pp.toNat : Int) = wc'.toInt % (pp.toNat : Int) →
      mechNumerator (unwrappedCounts wc raw) (polePairs pp) =
        mechNumerator (unwrappedCounts wc' raw) (polePairs pp)) ∧
    (∀ wc wc' : BitVec w, wc'.toInt = wc.toInt + (pp.toNat : Int) →
      mechNumerator (unwrappedCounts wc raw) (polePairs pp) =
        mechNumerator (unwrappedCounts wc' raw) (polePairs pp)) ∧
    (∀ wc wc' : BitVec w, wc'.toInt = wc.toInt + 1 →
      ∃ k : Int, mechDeg (mechNumerator (unwrappedCounts wc' raw) (polePairs pp)).toNat pp.toNat =
        mechDeg (mechNumerator (unwrappedCounts wc raw) (polePairs pp)).toNat pp.toNat +
          360 / (pp.toNat : Rat) + 360 * (k : Rat)) ∧
    (∀ z : Int, pp.toNat ∣ 2 ^ w →
      mechNumerator (unwrappedCounts (wrapTo w z) raw) (polePairs pp) =
        mechNumerator (z * 16384 + (raw.toNat : Int)) (polePairs pp)) ∧
    (∀ z : Int, z = 2 ^ (w - 1) ∨ z = -2 ^ (w - 1) - 1 → ¬ pp.toNat ∣ 2 ^ w →
      mechNumerator (unwrappedCounts (wrapTo w z) raw) (polePairs pp) ≠
        mechNumerator (z * 16384 + (raw.toNat : Int)) (polePairs pp)) ∧
    (∀ z : Int, wcOverflows w z = true →
      unwrappedCounts (wrapTo w z) raw ≠ z * 16384 + (raw.toNat : Int))

/-- Resolution (42_electrical_to_mechanical_scaler.md section 3): with `P = 1` the scaler is the identity on the electrical
angle, whatever the wrap count is; one step of the numerator is `45 / (2048 * P)` degrees. -/
def Obligations.ResolutionAndIdentity : Prop :=
  (∀ (w : Nat) (wc : BitVec w) (raw : Raw),
    mechNumerator (unwrappedCounts wc raw) (polePairs 1#8) = (raw.toNat : Int) ∧
    mechDeg raw.toNat 1 = elecDeg raw) ∧
  (∀ n p : Nat, 1 ≤ p → mechDeg (n + 1) p - mechDeg n p = 45 / (2048 * (p : Rat)))

/-- 42_electrical_to_mechanical_scaler.md R98, continuity: the mechanical angles of two consecutive `SAMPLE`s with the same `P`
and no overflow differ, modulo 360 degrees, by `(u_after - u_before) / P` counts, at most `180 / P` degrees. -/
def Obligations.MechanicalAngleContinuity : Prop :=
  ∀ (w : Nat) (a0 a1 b0 b1 pp : Byte) (r r1 r2 : Regs w) (q1 q2 : Response w), 2 ≤ w → pp ≠ 0#8 →
    commandEffect (.sample a0 a1 pp) r = (r1, some q1) →
    commandEffect (.sample b0 b1 pp) r1 = (r2, some q2) →
    wcOverflows w (r1.wc.toInt + q2.step.toInt) = false →
    ∃ (k : Int) (x : Rat), x = ((r2.position - r1.position : Int) : Rat) / (pp.toNat : Rat) * 360 / 16384 ∧
      |r2.position - r1.position| ≤ 8192 ∧ |x| ≤ 180 / (pp.toNat : Rat) ∧
      mechDeg q2.mechNum.toNat pp.toNat - mechDeg q1.mechNum.toNat pp.toNat = x + 360 * (k : Rat)

/-! ### The whole of `SAMPLE` against DOC's function, and runs -/

/-- 43_pipeline_commands.md R108: for every state and every legal `SAMPLE`, away from the overflow, the hardware result is
the image of DOC's steps 1 to 7 on exact numbers. -/
def Obligations.SampleRefinesReference : Prop :=
  ∀ (w : Nat) (byte0 byte1 pp : Byte) (r r' : Regs w) (q : Response w), 2 ≤ w → pp ≠ 0#8 →
    commandEffect (.sample byte0 byte1 pp) r = (r', some q) →
    wcOverflows w (r.wc.toInt + q.step.toInt) = false →
    unwrapRef (elecDeg (rawSample byte0 byte1)) (elecDeg r.prev, r.wc.toInt) pp.toNat =
      ((elecDeg r'.prev, r'.wc.toInt), (q.unwrapped.toInt : Rat) * 45 / 2048,
        mechDeg q.mechNum.toNat pp.toNat)

/-- DOC's decreasing sequence on exact numbers (43_pipeline_commands.md section 2), for any angle above 180 first and any
later angle at most 180 degrees below the one before: the wrap count is decremented once and stays, and the mechanical
angle is `((e - 360) / 4) mod 360`; the next step up from 0 decrements again. -/
def Obligations.DecreasingSequence : Prop :=
  (∀ e : Rat, 180 < e → e < 360 →
    unwrapRef e (0, 0) 4 = ((e, -1), e - 360, ratMod ((e - 360) / 4) 360) ∧
    unwrapRef e (0, -1) 4 = ((e, -2), e - 720, ratMod ((e - 720) / 4) 360)) ∧
  (∀ e prev : Rat, 0 ≤ e → e ≤ prev → prev < 360 → prev - e ≤ 180 →
    unwrapRef e (prev, -1) 4 = ((e, -1), e - 360, ratMod ((e - 360) / 4) 360))

/-- 43_pipeline_commands.md R116: presenting the RawSample that `PREV` already holds changes no register, and presenting the
same `SAMPLE` word twice repeats the response with `STEP = 0`. -/
def Obligations.RepeatedSampleKeepsWrapCount : Prop :=
  ∀ (w : Nat) (r : Regs w) (byte0 byte1 pp : Byte), 2 ≤ w → pp ≠ 0#8 →
    (rawSample byte0 byte1 = r.prev →
      (commandEffect (.sample byte0 byte1 pp) r).1 = r ∧
      ∃ q, (commandEffect (.sample byte0 byte1 pp) r).2 = some q ∧ q.step = 0#2) ∧
    (let first := commandEffect (.sample byte0 byte1 pp) r
     let second := commandEffect (.sample byte0 byte1 pp) first.1
     second.1 = first.1 ∧ second.2 = first.2.map (fun q => { q with step := 0#2 }))

/-- A model may drop every `SKIP` from a command list (43_pipeline_commands.md section 3): the final registers and the
responses are the same. -/
def Obligations.SkipsMayBeDropped : Prop :=
  ∀ (w : Nat) (r : Regs w) (cmds : List Word), runWords r (cmds.filter isAnswered) = runWords r cmds

/-- Which commands respond, and how responses pair with commands (30_encoding.md section 4, 70_reset_and_hazards.md section
3): the i-th response belongs to the i-th command that is no `SKIP`; it has `ERR = 1` exactly when that command is illegal,
carries its cause, 0 for a legal `SAMPLE`, and in `RAW` that command's RawSample, 0 for an illegal one. -/
def Obligations.ResponsesPairWithCommands : Prop :=
  ∀ (w : Nat) (r : Regs w) (cmds : List Word),
    (runWords r cmds).2.map (fun q => (q.err, q.cause, q.raw)) =
      (cmds.filter isAnswered).map (fun cmd => (isIllegal cmd, wordCause cmd, wordRaw cmd))

/-- What a run leaves in `PREV` and `STATUS.ILL` (10_state.md sections 2, 4 and 7): `PREV` holds the RawSample of the most
recent legal `SAMPLE`, or its first value if there is none; `ILL` is set exactly if it was set before or some word is
illegal. -/
def Obligations.RunLeavesLastSample : Prop :=
  ∀ (w : Nat) (r : Regs w) (cmds : List Word),
    (runWords r cmds).1.prev = lastRaw r.prev cmds ∧
    (runWords r cmds).1.ill = (r.ill || cmds.any isIllegal)

/-- The wrap count is the net number of wraps (10_state.md section 2): in a run that leaves `OVF` clear, `WC` has moved by
exactly the sum of the steps its responses report, and `OVF` was clear all along. -/
def Obligations.WrapCountIsSumOfSteps : Prop :=
  ∀ (w : Nat) (r : Regs w) (cmds : List Word), 2 ≤ w → (runWords r cmds).1.ovf = false →
    r.ovf = false ∧
    (runWords r cmds).1.wc.toInt =
      r.wc.toInt + ((runWords r cmds).2.map (fun q => q.step.toInt)).sum

/-- Several instances (60_exceptions.md section 7), each with its own width: whatever way their inputs are interleaved, a
reset of one of them among the inputs or not, instance `k` ends in the registers, and gives the responses, in order, of
its own inputs alone; fed commands only, these are those of its own run. -/
def Obligations.InstancesAreIndependent : Prop :=
  (∀ (fleet : List Pipeline) (inputs : List (Nat × PipelineInput)) (k : Nat),
    (fleetRun fleet inputs).1[k]? =
      fleet[k]?.map (fun p =>
        ⟨p.width, (runInputs p.regs ((inputs.filter (fun c => c.1 == k)).map Prod.snd)).1⟩) ∧
    ((fleetRun fleet inputs).2.filter (fun c => c.1 == k)).map Prod.snd =
      match fleet[k]? with
      | none => []
      | some p =>
        (runInputs p.regs ((inputs.filter (fun c => c.1 == k)).map Prod.snd)).2.map
          (SizedResponse.mk p.width)) ∧
  (∀ (w : Nat) (r : Regs w) (cmds : List Word),
    runInputs r (cmds.map PipelineInput.command) = runWords r cmds) ∧
  (∀ (w : Nat) (r : Regs w) (before after : List PipelineInput),
    runInputs r (before ++ .reset :: after) =
      ((runInputs (Regs.reset w) after).1,
        (runInputs r before).2 ++ (runInputs (Regs.reset w) after).2))

/-! ### The clocked view -/

/-- Nothing depends on `LATENCY` or on idle cycles (30_encoding.md section 1, 43_pipeline_commands.md section 1): for every
latency and every state of the pipeline, a clocked run without reset, given `LATENCY` further idle cycles, ends in the
registers and with the responses of the untimed run over the words that were in the pipeline and those it accepted, with
nothing left in the pipeline. That
`LATENCY` idle cycles are enough rests on the edge at which a word retires (log 9, DEDUCED). -/
def Obligations.LatencyChangesNothing : Prop :=
  ∀ (w : Nat) (c : Clocked w) (ps : List Pins), (∀ p ∈ ps, p.rst = false) →
    (clockRun c (ps ++ List.replicate c.pipe.length idlePins)).1.regs =
      (runWords c.regs (c.pipe.filterMap id ++ ps.filterMap Pins.accepted)).1 ∧
    (clockRun c (ps ++ List.replicate c.pipe.length idlePins)).2 =
      (runWords c.regs (c.pipe.filterMap id ++ ps.filterMap Pins.accepted)).2 ∧
    (clockRun c (ps ++ List.replicate c.pipe.length idlePins)).1.pipe =
      List.replicate c.pipe.length none

/-- A reset discards the commands in flight and begins a new run (70_reset_and_hazards.md section 1): whatever came before,
the cycles after a reset cycle go as from the reset state, and the reset cycle itself responds nothing. That a response
retired at the edge just before the reset cycle is among those of the earlier run is the model's choice (log 15). -/
def Obligations.ResetBeginsNewRun : Prop :=
  ∀ (w : Nat) (c : Clocked w) (before after : List Pins) (p : Pins), p.rst = true →
    clockRun c (before ++ p :: after) =
      ((clockRun (clockedReset w c.pipe.length) after).1,
        (clockRun c before).2 ++ (clockRun (clockedReset w c.pipe.length) after).2)

/-! ### The parameter `WC_W` -/

/-- The wrap-count width is a parameter of the machine (00_scope.md section 4): whatever a step does, the machine it leaves
has the width it was built with. The machine the pipeline runs takes the default width 32 (the model's choice, log 1). -/
def Obligations.WidthIsAParameter : Prop :=
  (∀ s t : State, step s = .next t → t.width = s.width) ∧ State.reset = ⟨32, Block.reset 32⟩
end

