-- ==== Sys2Proof/Laws/Encoding.lean ====
section
/-! SUPPORT. The encoding in numbers: fields, masks and the word of a `SAMPLE`, so that statements about words
become linear arithmetic. -/

namespace Sys2Proof

/-- Masking a field of `m` bits at bit `k` out of a number. -/
theorem nat_and_field (x m k : Nat) :
    x &&& (2 ^ m - 1) * 2 ^ k = x / 2 ^ k % 2 ^ m * 2 ^ k := by
  apply Nat.eq_of_testBit_eq
  intro i
  rw [Nat.testBit_and, Nat.testBit_mul_two_pow, Nat.testBit_mul_two_pow, Nat.testBit_two_pow_sub_one,
    Nat.testBit_mod_two_pow, Nat.testBit_div_two_pow]
  by_cases h : k ≤ i <;> simp [h, Bool.and_comm]

/-- The same for a word: a masked field equals a constant exactly when the field does. -/
theorem word_and_field (cmd : Word) (m k : Nat) (mask : Word) (hm : mask.toNat = (2 ^ m - 1) * 2 ^ k) :
    (cmd &&& mask).toNat = cmd.toNat / 2 ^ k % 2 ^ m * 2 ^ k := by
  rw [BitVec.toNat_and, hm, nat_and_field]

theorem opField_toNat (cmd : Word) : (opField cmd).toNat = cmd.toNat / 2 ^ 30 % 4 := by
  simp [opField, BitVec.extractLsb'_toNat, Nat.shiftRight_eq_div_pow]

theorem rsvField_toNat (cmd : Word) : (rsvField cmd).toNat = cmd.toNat / 2 ^ 24 % 64 := by
  simp [rsvField, BitVec.extractLsb'_toNat, Nat.shiftRight_eq_div_pow]

theorem ppField_toNat (cmd : Word) : (ppField cmd).toNat = cmd.toNat / 2 ^ 16 % 256 := by
  simp [ppField, BitVec.extractLsb'_toNat, Nat.shiftRight_eq_div_pow]

theorem byte0Field_toNat (cmd : Word) : (byte0Field cmd).toNat = cmd.toNat / 2 ^ 8 % 256 := by
  simp [byte0Field, BitVec.extractLsb'_toNat, Nat.shiftRight_eq_div_pow]

theorem byte1Field_toNat (cmd : Word) : (byte1Field cmd).toNat = cmd.toNat % 256 := by
  simp [byte1Field, BitVec.extractLsb'_toNat]

/-- Two words of format C are equal when their numbers are. -/
theorem opField_eq_zero_iff (cmd : Word) : opField cmd = 0b00#2 ↔ cmd.toNat < 0x40000000 := by
  have := cmd.isLt
  rw [← BitVec.toNat_inj, opField_toNat]
  show cmd.toNat / 2 ^ 30 % 4 = 0 ↔ _
  omega

theorem topBit_iff (cmd : Word) : cmd.getLsbD 31 = true ↔ 0x80000000 ≤ cmd.toNat := by
  have := cmd.isLt
  rw [BitVec.getLsbD, Nat.testBit_eq_decide_div_mod_eq, decide_eq_true_eq]
  omega

theorem rsvField_eq_zero_iff (cmd : Word) : rsvField cmd = 0#6 ↔ cmd.toNat / 0x1000000 % 64 = 0 := by
  rw [← BitVec.toNat_inj, rsvField_toNat]; simp

theorem ppField_eq_zero_iff (cmd : Word) : ppField cmd = 0#8 ↔ cmd.toNat / 0x10000 % 256 = 0 := by
  rw [← BitVec.toNat_inj, ppField_toNat]; simp

/-- What the decoder can answer, each case with the range of its words (30_encoding.md R47, R48). -/
theorem decode_cases (cmd : Word) :
    (decode cmd = .skip ∧ cmd.toNat < 0x40000000) ∨
    (decode cmd = .illegalReservedOp ∧ 0x80000000 ≤ cmd.toNat) ∨
    (decode cmd = .illegalReservedBits ∧ 0x41000000 ≤ cmd.toNat ∧ cmd.toNat < 0x80000000) ∨
    (decode cmd = .illegalZeroPolePairs ∧ 0x40000000 ≤ cmd.toNat ∧ cmd.toNat < 0x40010000) ∨
    (decode cmd = .sample (byte0Field cmd) (byte1Field cmd) (ppField cmd) ∧ ppField cmd ≠ 0#8 ∧
      0x40010000 ≤ cmd.toNat ∧ cmd.toNat < 0x41000000) := by
  have := cmd.isLt
  have h1 := opField_eq_zero_iff cmd
  have h2 := topBit_iff cmd
  have h3 := rsvField_eq_zero_iff cmd
  have h4 := ppField_eq_zero_iff cmd
  unfold decode
  split_ifs with c1 c2 c3 c4
  · exact .inl ⟨rfl, h1.mp c1⟩
  · exact .inr (.inl ⟨rfl, h2.mp c2⟩)
  · refine .inr (.inr (.inl ⟨rfl, ?_⟩)); rw [Ne, h3] at c3; rw [h1] at c1; rw [h2] at c2; omega
  · refine .inr (.inr (.inr (.inl ⟨rfl, ?_⟩)))
    rw [h4] at c4; rw [Ne, not_not, h3] at c3; rw [h1] at c1; rw [h2] at c2; omega
  · refine .inr (.inr (.inr (.inr ⟨rfl, c4, ?_⟩)))
    rw [h4] at c4; rw [Ne, not_not, h3] at c3; rw [h1] at c1; rw [h2] at c2; omega

/-- The word of `SAMPLE` as a number (30_encoding.md R55). -/
theorem encode_sample_toNat (byte0 byte1 pp : Byte) :
    (encode (.sample byte0 byte1 pp)).toNat =
      0x40000000 + pp.toNat * 65536 + byte0.toNat * 256 + byte1.toNat := by
  have h0 : byte0.toNat < 2 ^ 8 := byte0.isLt
  have h1 : byte1.toNat < 2 ^ 8 := byte1.isLt
  have h2 : pp.toNat < 2 ^ 8 := pp.isLt
  show (0b01#2 ++ 0b000000#6 ++ pp ++ byte0 ++ byte1).toNat = _
  rw [BitVec.toNat_append, BitVec.toNat_append, BitVec.toNat_append,
    ← Nat.shiftLeft_add_eq_or_of_lt h1, ← Nat.shiftLeft_add_eq_or_of_lt h0,
    ← Nat.shiftLeft_add_eq_or_of_lt h2]
  simp only [Nat.shiftLeft_eq]
  show ((64 * 2 ^ 8 + pp.toNat) * 2 ^ 8 + byte0.toNat) * 2 ^ 8 + byte1.toNat = _
  omega

end Sys2Proof
end

