-- ==== Sys2Proof/Laws/Operations.lean ====
section
/-! SUPPORT. What each shared operation can do, said once. -/

namespace Sys2Proof.Machine

/-- The RawSample as a number. -/
theorem rawSample_toNat (byte0 byte1 : Byte) :
    (rawSample byte0 byte1).toNat = byte0.toNat % 64 * 256 + byte1.toNat := by
  have h0 : byte0.toNat &&& 63 = byte0.toNat % 64 := Nat.and_two_pow_sub_one_eq_mod _ 6
  have h1 : byte1.toNat < 2 ^ 8 := byte1.isLt
  have h2 : byte0.toNat % 64 < 64 := Nat.mod_lt _ (by decide)
  have high : ((byte0 &&& 0x3F#8).setWidth 14 <<< 8).toNat = 2 ^ 8 * (byte0.toNat % 64) := by
    rw [BitVec.toNat_shiftLeft, BitVec.toNat_setWidth, BitVec.toNat_and, Nat.shiftLeft_eq]
    change (byte0.toNat &&& 63) % 2 ^ 14 * 2 ^ 8 % 2 ^ 14 = _
    rw [h0]; omega
  have low : (byte1.setWidth 14).toNat = byte1.toNat := by
    rw [BitVec.toNat_setWidth]; omega
  rw [rawSample, BitVec.toNat_or, high, low, ← Nat.two_pow_add_eq_or_of_lt h1]
  omega

/-- The delta is a 15-bit signed number (41_wraparound_detector.md R72). -/
theorem delta_bounds (raw prev : Raw) : -16383 ≤ delta raw prev ∧ delta raw prev ≤ 16383 := by
  have := raw.isLt; have := prev.isLt
  unfold delta; omega

/-- The three cases of the detector's step, each with what the delta is. -/
theorem detectorStep_cases (d : Int) :
    (detectorStep d = -1 ∧ 8192 < d) ∨ (detectorStep d = 1 ∧ d < -8192) ∨
    (detectorStep d = 0 ∧ -8192 ≤ d ∧ d ≤ 8192) := by
  unfold detectorStep; split
  · left; exact ⟨rfl, by omega⟩
  · split
    · right; left; exact ⟨rfl, by omega⟩
    · right; right; exact ⟨rfl, by omega⟩

/-- The step survives its 2-bit response field. -/
theorem detectorStep_field (d : Int) : (wrapTo 2 (detectorStep d)).toInt = detectorStep d := by
  rcases detectorStep_cases d with h | h | h <;> rw [h.1] <;> decide

/-- When `OVF` is not set, the wrapped count is the mathematical one (41_wraparound_detector.md R75). -/
theorem wrapTo_toInt {w : Nat} {z : Int} (hw : 0 < w) (h : wcOverflows w z = false) :
    (wrapTo w z).toInt = z := by
  have h2 : -(2 ^ (w - 1)) ≤ z ∧ z ≤ 2 ^ (w - 1) - 1 := by
    simpa [wcOverflows] using h
  obtain ⟨k, rfl⟩ : ∃ k, w = k + 1 := ⟨w - 1, by omega⟩
  simp only [Nat.add_sub_cancel] at h2
  rw [wrapTo, BitVec.toInt_ofInt, Int.bmod_eq_of_le] <;> push_cast <;> omega

/-- The range of a signed register (00_scope.md section 6). -/
theorem toInt_bounds {w : Nat} (x : BitVec w) :
    -(2 ^ (w - 1)) ≤ x.toInt ∧ x.toInt ≤ 2 ^ (w - 1) - 1 := by
  have h1 := BitVec.le_toInt x
  have h2 := BitVec.toInt_lt (x := x)
  omega

/-- Leaving a register as it is never overflows (10_state.md R15). -/
theorem wcOverflows_toInt {w : Nat} (x : BitVec w) :
    wcOverflows w x.toInt = false := by
  have := toInt_bounds x
  simp only [wcOverflows, decide_eq_false_iff_not, not_or, not_lt]
  omega

/-- One past the top of the range wraps to the bottom. -/
theorem wrapTo_past_top {w : Nat} (hw : 2 ≤ w) : (wrapTo w (2 ^ (w - 1))).toInt = -2 ^ (w - 1) := by
  obtain ⟨k, rfl⟩ : ∃ k, w = k + 1 := ⟨w - 1, by omega⟩
  have h2 : (2 : Int) ^ (k + 1) = 2 ^ k * 2 := pow_succ _ _
  have h3 : (0 : Int) < 2 ^ k := by positivity
  have h4 : (2 : Int) ^ k = -2 ^ k + ((2 ^ (k + 1) : Nat) : Int) * 1 := by push_cast; omega
  rw [wrapTo, BitVec.toInt_ofInt, Nat.add_sub_cancel]
  conv_lhs => rw [h4]
  rw [Int.add_mul_bmod_self_left, Int.bmod_eq_of_le] <;> push_cast <;> omega

/-- One below the bottom of the range wraps to the top. -/
theorem wrapTo_past_bottom {w : Nat} (hw : 2 ≤ w) :
    (wrapTo w (-2 ^ (w - 1) - 1)).toInt = 2 ^ (w - 1) - 1 := by
  obtain ⟨k, rfl⟩ : ∃ k, w = k + 1 := ⟨w - 1, by omega⟩
  have h2 : (2 : Int) ^ (k + 1) = 2 ^ k * 2 := pow_succ _ _
  have h3 : (0 : Int) < 2 ^ k := by positivity
  have h4 : -(2 : Int) ^ k - 1 = (2 ^ k - 1) + ((2 ^ (k + 1) : Nat) : Int) * (-1) := by
    push_cast; omega
  rw [wrapTo, BitVec.toInt_ofInt, Nat.add_sub_cancel, h4]
  rw [Int.add_mul_bmod_self_left, Int.bmod_eq_of_le] <;> push_cast <;> omega

/-- A wrapped integer differs from it by a multiple of `2^w`. -/
theorem wrapTo_toInt_mod (w : Nat) (z : Int) :
    ∃ k : Int, (wrapTo w z).toInt = z + k * ((2 ^ w : Nat) : Int) := by
  rw [wrapTo, BitVec.toInt_ofInt]
  have h : (z.bmod (2 ^ w)) % ((2 ^ w : Nat) : Int) = z % ((2 ^ w : Nat) : Int) := Int.bmod_emod
  obtain ⟨k, hk⟩ := Int.ModEq.dvd (show _ ≡ _ [ZMOD _] from h.symm)
  exact ⟨k, by linarith⟩

/-- The numerator is a remainder modulo `16384 * P` (42_electrical_to_mechanical_scaler.md R90). -/
theorem mechNumerator_bounds (u : Int) {p : Nat} (hp : 0 < p) :
    0 ≤ mechNumerator u p ∧ mechNumerator u p < 16384 * (p : Int) := by
  constructor
  · exact Int.emod_nonneg _ (by positivity)
  · exact Int.emod_lt_of_pos _ (by positivity)

/-- A legal operand is a count of at least 1 (30_encoding.md R44). -/
theorem polePairs_bounds {pp : Byte} (h : pp ≠ 0#8) : 0 < polePairs pp ∧ polePairs pp ≤ 255 := by
  have h1 := pp.isLt
  have h2 : pp.toNat ≠ 0 := fun hz => h (BitVec.eq_of_toNat_eq (by simpa using hz))
  unfold polePairs; omega

/-- The numerator of a legal `SAMPLE` survives its 22-bit field (42_electrical_to_mechanical_scaler.md
section 2). -/
theorem mechNumerator_field (u : Int) {pp : Byte} (h : pp ≠ 0#8) :
    ((wrapTo 22 (mechNumerator u (polePairs pp))).toNat : Int) = mechNumerator u (polePairs pp) := by
  have ⟨h1, h2⟩ := polePairs_bounds h
  have ⟨h3, h4⟩ := mechNumerator_bounds u h1
  rw [wrapTo, BitVec.toNat_ofInt]
  have h5 : mechNumerator u (polePairs pp) % ((2 ^ 22 : Nat) : Int) = mechNumerator u (polePairs pp) := by
    apply Int.emod_eq_of_lt h3; push_cast; omega
  rw [h5]; omega

/-- A legal `SAMPLE` never raises the exception. -/
theorem sampleOrIllegal_legal {w : Nat} {byte0 byte1 pp : Byte} (h : pp ≠ 0#8) (r : Regs w) :
    sampleOrIllegal byte0 byte1 pp r = sampleEffect byte0 byte1 pp r := by
  simp [sampleOrIllegal, h]

/-- What `raise IllegalCommand` can change: `ILL`, and the response (60_exceptions.md R128). -/
@[simp] theorem raiseIllegal_prev {w : Nat} (c) (r : Regs w) : (raiseIllegal c r).1.prev = r.prev := rfl
@[simp] theorem raiseIllegal_wc {w : Nat} (c) (r : Regs w) : (raiseIllegal c r).1.wc = r.wc := rfl
@[simp] theorem raiseIllegal_ovf {w : Nat} (c) (r : Regs w) : (raiseIllegal c r).1.ovf = r.ovf := rfl
@[simp] theorem raiseIllegal_ill {w : Nat} (c) (r : Regs w) : (raiseIllegal c r).1.ill = true := rfl
@[simp] theorem raiseIllegal_rsp {w : Nat} (c) (r : Regs w) :
    (raiseIllegal c r).2 = some (errorResponse w c) := rfl

@[simp] theorem skipEffect_eq {w : Nat} (r : Regs w) : skipEffect r = (r, none) := rfl

@[simp] theorem sampleEffect_prev {w : Nat} (b0 b1 pp) (r : Regs w) :
    (sampleEffect b0 b1 pp r).1.prev = rawSample b0 b1 := rfl
@[simp] theorem sampleEffect_wc {w : Nat} (b0 b1 pp) (r : Regs w) :
    (sampleEffect b0 b1 pp r).1.wc =
      wrapTo w (wrapSum r.wc (detectorStep (delta (rawSample b0 b1) r.prev))) := rfl
@[simp] theorem sampleEffect_ovf {w : Nat} (b0 b1 pp) (r : Regs w) :
    (sampleEffect b0 b1 pp r).1.ovf =
      (r.ovf || wcOverflows w (wrapSum r.wc (detectorStep (delta (rawSample b0 b1) r.prev)))) := rfl
@[simp] theorem sampleEffect_ill {w : Nat} (b0 b1 pp) (r : Regs w) :
    (sampleEffect b0 b1 pp r).1.ill = r.ill := rfl

@[simp] theorem runWords_nil {w : Nat} (r : Regs w) : runWords r [] = (r, []) := rfl
theorem runWords_cons {w : Nat} (r : Regs w) (cmd) (rest) :
    runWords r (cmd :: rest) =
      ((runWords (pipelineExec r cmd).1 rest).1,
        (pipelineExec r cmd).2.toList ++ (runWords (pipelineExec r cmd).1 rest).2) := rfl

end Sys2Proof.Machine
end

