-- ==== Sys2Proof/Laws/State.lean ====
section
/-! SUPPORT. One lemma per field of `Block` and `State` and per named update of them. -/

namespace Sys2Proof.Machine

variable {w : Nat}

/-! Retirement writes the registers and the response port. -/

@[simp] theorem Block.retire_regs (b : Block w) (e) : (b.retire e).regs = e.1 := rfl
@[simp] theorem Block.retire_rsp (b : Block w) (e) : (b.retire e).rsp = e.2 := rfl
@[simp] theorem Block.retire_inFlight (b : Block w) (e) : (b.retire e).inFlight = b.inFlight := rfl
@[simp] theorem Block.retire_rst (b : Block w) (e) : (b.retire e).rst = b.rst := rfl
@[simp] theorem Block.retire_everReset (b : Block w) (e) : (b.retire e).everReset = b.everReset := rfl

/-! Retirement on the whole machine keeps the width. -/

@[simp] theorem State.retire_mk (b : Block w) (e) : State.retire ⟨w, b⟩ e = ⟨w, b.retire e⟩ := rfl
@[simp] theorem State.retire_width (s : State) (e) : (s.retire e).width = s.width := rfl
@[simp] theorem State.retire_block (s : State) (e) : (s.retire e).block = s.block.retire e := rfl

/-! A reset cycle. -/

@[simp] theorem Block.resetCycle_regs (b : Block w) : b.resetCycle.regs = Regs.reset w := rfl
@[simp] theorem Block.resetCycle_rsp (b : Block w) : b.resetCycle.rsp = none := rfl
@[simp] theorem Block.resetCycle_inFlight (b : Block w) : b.resetCycle.inFlight = [] := rfl
@[simp] theorem Block.resetCycle_rst (b : Block w) : b.resetCycle.rst = b.rst := rfl
@[simp] theorem Block.resetCycle_everReset (b : Block w) : b.resetCycle.everReset = true := rfl

/-! An idle cycle. -/

@[simp] theorem Block.idleCycle_regs (b : Block w) : b.idleCycle.regs = b.regs := rfl
@[simp] theorem Block.idleCycle_rsp (b : Block w) : b.idleCycle.rsp = none := rfl
@[simp] theorem Block.idleCycle_inFlight (b : Block w) : b.idleCycle.inFlight = b.inFlight := rfl
@[simp] theorem Block.idleCycle_rst (b : Block w) : b.idleCycle.rst = b.rst := rfl
@[simp] theorem Block.idleCycle_everReset (b : Block w) : b.idleCycle.everReset = b.everReset := rfl

/-! Placing the next command. -/

@[simp] theorem Block.placeNext_regs (b : Block w) (cmd) : (b.placeNext cmd).regs = b.regs := rfl
@[simp] theorem Block.placeNext_rsp (b : Block w) (cmd) : (b.placeNext cmd).rsp = b.rsp := rfl
@[simp] theorem Block.placeNext_inFlight (b : Block w) (cmd) :
    (b.placeNext cmd).inFlight = cmd :: b.inFlight.tail := rfl
@[simp] theorem Block.placeNext_rst (b : Block w) (cmd) : (b.placeNext cmd).rst = false := rfl
@[simp] theorem Block.placeNext_everReset (b : Block w) (cmd) : (b.placeNext cmd).everReset = true := rfl

/-! The reset pin. -/

@[simp] theorem Block.setRst_regs (b : Block w) (level) : (b.setRst level).regs = b.regs := rfl
@[simp] theorem Block.setRst_rsp (b : Block w) (level) : (b.setRst level).rsp = b.rsp := rfl
@[simp] theorem Block.setRst_inFlight (b : Block w) (level) : (b.setRst level).inFlight = b.inFlight := rfl
@[simp] theorem Block.setRst_rst (b : Block w) (level) : (b.setRst level).rst = level := rfl
@[simp] theorem Block.setRst_everReset (b : Block w) (level) :
    (b.setRst level).everReset = b.everReset := rfl

/-! The command port: acceptance touches nothing but the commands in flight. -/

@[simp] theorem Block.accept_regs (b : Block w) (v cmd) : (b.accept v cmd).regs = b.regs := by
  unfold Block.accept; split <;> rfl
@[simp] theorem Block.accept_rsp (b : Block w) (v cmd) : (b.accept v cmd).rsp = b.rsp := by
  unfold Block.accept; split <;> rfl
@[simp] theorem Block.accept_inFlight (b : Block w) (v cmd) :
    (b.accept v cmd).inFlight = if v && !b.rst then b.inFlight ++ [cmd] else b.inFlight := by
  unfold Block.accept Block.cmdReady; split <;> simp_all
@[simp] theorem Block.accept_rst (b : Block w) (v cmd) : (b.accept v cmd).rst = b.rst := by
  unfold Block.accept; split <;> rfl
@[simp] theorem Block.accept_everReset (b : Block w) (v cmd) : (b.accept v cmd).everReset = b.everReset := by
  unfold Block.accept; split <;> rfl

/-! Fetching. -/

theorem Block.fetch_of_nil {b : Block w} (h : b.inFlight = []) : b.fetch = none := by
  simp [Block.fetch, h]

theorem Block.fetch_of_cons {b : Block w} {cmd rest} (h : b.inFlight = cmd :: rest) :
    b.fetch = some (cmd, { b with inFlight := rest }) := by
  simp [Block.fetch, h]

/-! The reset state. -/

theorem State.reset_eq : State.reset = ⟨32, Block.reset 32⟩ := rfl
@[simp] theorem Block.reset_regs : (Block.reset w).regs = Regs.reset w := rfl
@[simp] theorem Block.reset_rsp : (Block.reset w).rsp = none := rfl
@[simp] theorem Block.reset_inFlight : (Block.reset w).inFlight = [] := rfl
@[simp] theorem Block.reset_rst : (Block.reset w).rst = false := rfl
@[simp] theorem Block.reset_everReset : (Block.reset w).everReset = true := rfl

end Sys2Proof.Machine
end

