-- ==== Sys2Proof/Laws/Exec.lean ====
section
/-! SUPPORT. What `exec` and `step` can do, said once. -/

namespace Sys2Proof.Machine

variable {w : Nat}

/-- Every command completes, and retires with its effect on the registers and its response. -/
theorem exec_eq_retire (i : Instr) (s : State) :
    exec i s = .next (s.retire (commandEffect i s.block.regs)) := by
  cases i <;> rfl

/-- A step with the reset pin high. -/
theorem step_of_rst {b : Block w} (h : b.rst = true) : step ⟨w, b⟩ = .next ⟨w, b.resetCycle⟩ := by
  simp [step, h]

/-- A step with nothing in flight. -/
theorem step_of_nil {b : Block w} (h : b.rst = false) (hf : b.inFlight = []) :
    step ⟨w, b⟩ = .next ⟨w, b.idleCycle⟩ := by
  simp [step, h, Block.fetch_of_nil hf]

/-- A step with a command in flight. -/
theorem step_of_cons {b : Block w} {cmd rest} (h : b.rst = false) (hf : b.inFlight = cmd :: rest) :
    step ⟨w, b⟩ = if b.everReset then
      .next ⟨w, Block.retire { b with inFlight := rest } (commandEffect (decode cmd) b.regs)⟩
      else .fault .commandBeforeReset := by
  simp [step, h, Block.fetch_of_cons hf, exec_eq_retire]

/-- The cases of a step that answers a next state: a reset cycle, an idle cycle, or a retirement. The width
stays what it is. -/
theorem step_next_cases {b : Block w} {t : State} (h : step ⟨w, b⟩ = .next t) :
    (b.rst = true ∧ t = ⟨w, b.resetCycle⟩) ∨
    (b.rst = false ∧ b.inFlight = [] ∧ t = ⟨w, b.idleCycle⟩) ∨
    (∃ cmd rest, b.rst = false ∧ b.everReset = true ∧ b.inFlight = cmd :: rest ∧
      t = ⟨w, Block.retire { b with inFlight := rest } (commandEffect (decode cmd) b.regs)⟩) := by
  rcases Bool.eq_false_or_eq_true b.rst with hr | hr
  · rw [step_of_rst hr] at h; exact .inl ⟨hr, (Host.Outcome.next.inj h).symm⟩
  · right
    cases hf : b.inFlight with
    | nil => rw [step_of_nil hr hf] at h; exact .inl ⟨hr, rfl, (Host.Outcome.next.inj h).symm⟩
    | cons cmd rest =>
      right
      rw [step_of_cons hr hf] at h
      split at h
      · rename_i he; exact ⟨cmd, rest, hr, he, rfl, (Host.Outcome.next.inj h).symm⟩
      · cases h

/-- One step at the front of the host's run. -/
theorem core_run_succ (k : Nat) (s t : State) (h : step s = .next t) :
    Sys2Proof.core.run (k + 1) s = Sys2Proof.core.run k t := by
  have gen : ∀ (M : Host.Core) (a b : M.State), M.step a = .next b → M.run (k + 1) a = M.run k b := by
    intro M a b hab; simp only [Host.Core.run, hab]
  exact gen Sys2Proof.core s t h

/-- One step at the front of the responses shown. -/
theorem shownResponses_succ (k : Nat) (s t : State) (h : step s = .next t) :
    shownResponses (k + 1) s = t.shown ++ shownResponses k t := by
  simp only [shownResponses, h]

end Sys2Proof.Machine
end

