-- ==== Sys2Proof/Laws/PerInstr.lean ====
section
/-! SUPPORT. The family `EncodingRow`: the word of every well-formed command lies in the row of
spec/opcode_table.json it belongs to (match and mask, and the row's constraint). -/

namespace Sys2Proof.Laws

/-- The row's `mask`. -/
def EncodingRow.mask : Instr → Word
  | .skip => 0xC0000000#32
  | .sample _ _ _ => 0xFF000000#32
  | .illegalReservedOp => 0x80000000#32
  | .illegalReservedBits => 0xC0000000#32
  | .illegalZeroPolePairs => 0xFFFF0000#32

/-- The row's `match`. -/
def EncodingRow.value : Instr → Word
  | .skip => 0x00000000#32
  | .sample _ _ _ => 0x40000000#32
  | .illegalReservedOp => 0x80000000#32
  | .illegalReservedBits => 0x40000000#32
  | .illegalZeroPolePairs => 0x40000000#32

/-- The row's constraint on the bits outside its mask. -/
def EncodingRow.constraint : Instr → Bool
  | .skip => true
  | .sample byte0 byte1 pp => encode (.sample byte0 byte1 pp) &&& 0x00FF0000#32 != 0#32
  | .illegalReservedOp => true
  | .illegalReservedBits => encode .illegalReservedBits &&& 0x3F000000#32 != 0#32
  | .illegalZeroPolePairs => true

/-- A well-formed command's word matches its row. -/
def EncodingRow.Statement (i : Instr) : Prop :=
  i.wellFormed = true →
    encode i &&& EncodingRow.mask i = EncodingRow.value i ∧ EncodingRow.constraint i = true

theorem EncodingRow.skip : EncodingRow.Statement .skip := by
  intro _; exact ⟨rfl, rfl⟩

theorem EncodingRow.illegalReservedOp : EncodingRow.Statement .illegalReservedOp := by
  intro _; exact ⟨rfl, rfl⟩

theorem EncodingRow.illegalReservedBits : EncodingRow.Statement .illegalReservedBits := by
  intro _; exact ⟨rfl, rfl⟩

theorem EncodingRow.illegalZeroPolePairs : EncodingRow.Statement .illegalZeroPolePairs := by
  intro _; exact ⟨rfl, rfl⟩

/-- The high byte of a `SAMPLE` word is the row's constant, its second byte is `pp`. -/
theorem EncodingRow.sample (byte0 byte1 pp : Byte) : EncodingRow.Statement (.sample byte0 byte1 pp) := by
  intro h
  have hpp : pp ≠ 0#8 := by simpa [Instr.wellFormed] using h
  have hw := encode_sample_toNat byte0 byte1 pp
  have := byte0.isLt; have := byte1.isLt; have := pp.isLt
  refine ⟨?_, ?_⟩
  · rw [← BitVec.toNat_inj]
    show (encode (.sample byte0 byte1 pp) &&& 0xFF000000#32).toNat = 0x40000000
    rw [word_and_field _ 8 24 _ rfl, hw]
    omega
  · simp only [EncodingRow.constraint, bne_iff_ne, ne_eq]
    rw [← BitVec.toNat_inj, word_and_field _ 8 16 0x00FF0000#32 rfl, hw]
    show ¬ _ = 0
    have hpp' : pp.toNat ≠ 0 := fun hz => hpp (BitVec.eq_of_toNat_eq hz)
    omega

end Sys2Proof.Laws
end

