-- ==== Sys2Proof/Laws/Runs.lean ====
section
/-! SUPPORT. What the ports, one edge of the clocked view and one input of a fleet can do, said once. -/

namespace Sys2Proof.Machine

variable {w : Nat}

/-! The response port. -/

theorem Block.visibleRsp_of_rst {b : Block w} (h : b.rst = true) : b.visibleRsp = none := by
  simp [Block.visibleRsp, h]

theorem Block.visibleRsp_of_not_rst {b : Block w} (h : b.rst = false) : b.visibleRsp = b.rsp := by
  simp [Block.visibleRsp, h]

/-! One edge of the clocked view. -/

theorem clockTick_of_rst {c : Clocked w} {p : Pins} (h : p.rst = true) :
    clockTick c p = clockedReset w c.pipe.length := by
  simp [clockTick, h]

/-- Without reset, an edge takes the cycle's word in at the back and retires the oldest slot. -/
theorem clockTick_cases {c : Clocked w} {p : Pins} (h : p.rst = false) :
    ∃ slot rest, c.pipe ++ [p.accepted] = slot :: rest ∧
      clockTick c p =
        { regs := (retireSlot c.regs slot).1, rsp := (retireSlot c.regs slot).2, pipe := rest } := by
  cases hp : c.pipe with
  | nil => exact ⟨_, _, rfl, by simp [clockTick, h, hp]⟩
  | cons slot tail => exact ⟨_, _, rfl, by simp [clockTick, h, hp]⟩

/-- The latency is a parameter of the clocked view: no edge changes it. -/
@[simp] theorem clockTick_pipe_length (c : Clocked w) (p : Pins) :
    (clockTick c p).pipe.length = c.pipe.length := by
  cases h : p.rst with
  | true => simp [clockTick_of_rst h, clockedReset]
  | false =>
    obtain ⟨slot, rest, hs, ht⟩ := clockTick_cases (c := c) h
    have := congrArg List.length hs
    simp only [List.length_append, List.length_cons, List.length_nil] at this
    rw [ht]; simp only; omega

@[simp] theorem clockRun_nil (c : Clocked w) : clockRun c [] = (c, []) := rfl
theorem clockRun_cons (c : Clocked w) (p) (rest) :
    clockRun c (p :: rest) = ((clockRun (clockTick c p) rest).1,
      (clockTick c p).rsp.toList ++ (clockRun (clockTick c p) rest).2) := rfl

/-! One input of a pipeline, and of a fleet. -/

@[simp] theorem inputEffect_command (r : Regs w) (cmd) : inputEffect r (.command cmd) = pipelineExec r cmd := rfl
@[simp] theorem inputEffect_reset (r : Regs w) : inputEffect r .reset = (Regs.reset w, none) := rfl

@[simp] theorem runInputs_nil (r : Regs w) : runInputs r [] = (r, []) := rfl
theorem runInputs_cons (r : Regs w) (input) (rest) :
    runInputs r (input :: rest) = ((runInputs (inputEffect r input).1 rest).1,
      (inputEffect r input).2.toList ++ (runInputs (inputEffect r input).1 rest).2) := rfl

theorem fleetExec_of_none {fleet : List Pipeline} {k : Nat} (h : fleet[k]? = none) (input) :
    fleetExec fleet k input = (fleet, []) := by
  simp [fleetExec, h]

theorem fleetExec_of_some {fleet : List Pipeline} {k : Nat} {p : Pipeline} (h : fleet[k]? = some p) (input) :
    fleetExec fleet k input =
      (fleet.set k { p with regs := (inputEffect p.regs input).1 },
        (inputEffect p.regs input).2.toList.map (fun q => (k, ⟨p.width, q⟩))) := by
  simp [fleetExec, h]

@[simp] theorem fleetRun_nil (fleet : List Pipeline) : fleetRun fleet [] = (fleet, []) := rfl
theorem fleetRun_cons (fleet : List Pipeline) (k input) (rest) :
    fleetRun fleet ((k, input) :: rest) = ((fleetRun (fleetExec fleet k input).1 rest).1,
      (fleetExec fleet k input).2 ++ (fleetRun (fleetExec fleet k input).1 rest).2) := rfl

end Sys2Proof.Machine
end

