-- ==== Sys2Proof/Tests/Slice0.lean ====
section
/-! SUPPORT. Tests against the spec's own examples, and for each obligation with hypotheses a witness that
something meets them. -/

open Sys2Proof Sys2Proof.Machine

namespace Sys2Proof.Tests

/-! ### Helpers -/

/-- A machine of width `w` after reset with these registers, and these commands in flight. -/
def stateWith {w : Nat} (prev : Raw) (wc : BitVec w) (cmds : List Word) : State :=
  ⟨w, { Block.reset w with regs := ⟨prev, wc, false, false⟩, inFlight := cmds }⟩

/-- The machine a step leaves. -/
def after : Host.Outcome State Fault Refusal → Option State
  | .next t => some t
  | .fault _ => none
  | .refused _ => none

/-- A machine after reset with these registers and this response on the port, nothing in flight. -/
def left {w : Nat} (regs : Regs w) (rsp : Option (Response w)) : Option State :=
  some ⟨w, { Block.reset w with regs := regs, rsp := rsp }⟩

/-! ### Well-formedness (30_encoding.md R44): each check refuses an ill-formed term -/

theorem test_zero_pole_pairs_ill_formed : (Instr.sample 0x3E#8 0x39#8 0#8).wellFormed = false := by decide

/-! ### Words written out from the encoding of 30_encoding.md section 2 -/

-- OP 00, RSV 000000, PP 00000100, BYTE0 00111110, BYTE1 00111001: payload ignored (95 K3)
theorem test_decode_skip : decode 0b00000000000001000011111000111001#32 = .skip := by decide
-- OP 01, RSV 000000, PP 00000100, BYTE0 00111110, BYTE1 00111001 (95 K4)
theorem test_decode_sample :
    decode 0b01000000000001000011111000111001#32 = .sample 0x3E#8 0x39#8 4#8 := by decide
-- OP 11 (95 K7)
theorem test_decode_reserved_op :
    decode 0b11000000000001000011111000111001#32 = .illegalReservedOp := by decide
-- OP 01, RSV 100000 (95 K10)
theorem test_decode_reserved_bits :
    decode 0b01100000000001000011111000111001#32 = .illegalReservedBits := by decide
-- OP 01, RSV 000000, PP 00000000 (95 K12)
theorem test_decode_zero_pole_pairs :
    decode 0b01000000000000000011111000111001#32 = .illegalZeroPolePairs := by decide
-- the edges between the rows (95 K13, K14, K15)
theorem test_decode_row_edges :
    decode 0x40000000#32 = .illegalZeroPolePairs ∧ decode 0x40010000#32 = .sample 0#8 0#8 1#8 ∧
    decode 0x40FFFFFF#32 = .sample 0xFF#8 0xFF#8 0xFF#8 ∧ decode 0x41000000#32 = .illegalReservedBits ∧
    decode 0x7FFFFFFF#32 = .illegalReservedBits ∧ decode 0x80000000#32 = .illegalReservedOp := by decide
theorem test_table_word : decodeTableWord 32 0x40043E39 = some (.sample 0x3E#8 0x39#8 4#8) := by decide

/-! ### One step each, from 95_test_vectors.md -/

-- C7: 10 to 350 degrees
theorem test_sample_decrements :
    after (step (stateWith 455#14 0#32 [0x40043E39#32])) =
      left (w := 32) ⟨15929#14, -1#32, false, false⟩
        (some ⟨false, 0#2, 15929#14, 0b11#2, BitVec.ofInt 46 (-455), 65081#22⟩) := by decide
-- C14: the count leaves its range at the top
theorem test_sample_overflows :
    after (step (stateWith 16383#14 0x7FFFFFFF#32 [0x40040000#32])) =
      left (w := 32) ⟨0#14, 0x80000000#32, true, false⟩
        (some ⟨false, 0#2, 0#14, 0b01#2, BitVec.ofInt 46 (-35184372088832), 0#22⟩) := by decide
-- K3
theorem test_skip_does_nothing :
    after (step (stateWith 15929#14 (-1#32) [0x00043E39#32])) =
      left (w := 32) ⟨15929#14, -1#32, false, false⟩ none := by decide
-- K8
theorem test_reserved_op :
    after (step (stateWith 15929#14 (-1#32) [0xFFFFFFFF#32])) =
      left (w := 32) ⟨15929#14, -1#32, false, true⟩ (some ⟨true, 1#2, 0#14, 0#2, 0#46, 0#22⟩) := by decide
-- K11: cause 2 before cause 3
theorem test_reserved_bits_first :
    after (step (stateWith 15929#14 (-1#32) [0x7F003E39#32])) =
      left (w := 32) ⟨15929#14, -1#32, false, true⟩ (some ⟨true, 2#2, 0#14, 0#2, 0#46, 0#22⟩) := by decide
-- K12
theorem test_zero_pole_pairs :
    after (step (stateWith 15929#14 (-1#32) [0x40003E39#32])) =
      left (w := 32) ⟨15929#14, -1#32, false, true⟩ (some ⟨true, 3#2, 0#14, 0#2, 0#46, 0#22⟩) := by decide
-- C4: placed after reset, the start-up transient
theorem test_fetch_word_after_reset :
    after (step (State.reset.withFetchWord 32 0x40042001)) =
      left (w := 32) ⟨8193#14, -1#32, false, false⟩
        (some ⟨false, 0#2, 8193#14, 0b11#2, BitVec.ofInt 46 (-8191), 57345#22⟩) := by decide
-- 70_reset_and_hazards.md R148
theorem test_command_before_reset : after (step ⟨32, (Block.powerUp 32).accept true 0x40040000#32⟩) = none := by rfl

/-! ### The stages, from 95_test_vectors.md -/

-- A5, A6, A16
theorem test_raw_sample :
    rawSample 0x40#8 0x01#8 = 1#14 ∧ rawSample 0x80#8 0x80#8 = 128#14 ∧
    rawSample 0x3E#8 0x39#8 = 15929#14 := by decide
-- W8 to W11: both sides of both thresholds
theorem test_detector_thresholds :
    detectorStep (delta 16383#14 8191#14) = 0 ∧ detectorStep (delta 16383#14 8190#14) = -1 ∧
    detectorStep (delta 8191#14 16383#14) = 0 ∧ detectorStep (delta 8190#14 16383#14) = 1 := by decide
-- S7, S10, S15
theorem test_scaler :
    mechNumerator (unwrappedCounts (-4#32) 0#14) 4 = 0 ∧
    mechNumerator (unwrappedCounts (-5#32) 100#14) 4 = 49252 ∧
    mechNumerator (unwrappedCounts (-1#32) 16383#14) 255 = 4177919 := by decide
-- P7 command 7, at WC_W = 2
theorem test_overflow_narrow :
    after (step (stateWith 12000#14 1#2 [0x40040000#32])) =
      left (w := 2) ⟨0#14, 2#2, true, false⟩
        (some ⟨false, 0#2, 0#14, 1#2, BitVec.ofInt 16 (-32768), 32768#22⟩) := by decide
-- P1 and P2: the order of samples matters (20_memory.md R31)
theorem test_order_matters :
    (runWords (Regs.reset 32) [0x400401C7#32, 0x40043E39#32]).1.wc = -1#32 ∧
    (runWords (Regs.reset 32) [0x40043E39#32, 0x400401C7#32]).1.wc = 0#32 := by decide
-- E2, E3, E5
theorem test_assembler :
    assemble (.sampler 15929 4) = some (.present 0x40043E39#32) ∧
    assemble (.sample4 0x3E 0x39) = some (.present 0x40043E39#32) ∧
    assemble (.sampler 16383 255) = some (.present 0x40FF3FFF#32) := by decide
-- X8: the scaler arithmetic in isolation, 710 / 4 = 177.5, and the sequence 10, 350 as corrected
theorem test_scale_ref : scaleRef 350 1 4 = (710, 355 / 2) := by
  norm_num [scaleRef, normaliseRef]
theorem test_unwrap_ref : unwrapRef 350 (10, 0) 4 = ((350, -1), -10, 715 / 2) := by
  norm_num [unwrapRef, detectRef, scaleRef, normaliseRef]

/-! ### Witnesses: for each obligation with hypotheses, something that meets them -/

theorem witness_IllegalWordsByCause :
    isIllegal 0x40010000#32 = false ∧ isIllegal 0x3FFFFFFF#32 = false ∧ isIllegal 0x40FFFFFF#32 = false ∧
    isIllegal 0x80000000#32 = true ∧ isIllegal 0x7FFFFFFF#32 = true ∧ isIllegal 0x41000000#32 = true ∧
    isIllegal 0x4000FFFF#32 = true ∧ isIllegal 0x40000000#32 = true := by decide

theorem witness_DecodeOfEncode :
    (Instr.sample 0xFF#8 0xFF#8 0xFF#8).wellFormed = true ∧ (Instr.sample 0#8 0#8 1#8).wellFormed = true ∧
    Instr.illegalReservedBits.wellFormed = true := by decide

theorem witness_EncodeOfDecode :
    decode 0x40010000#32 = .sample 0#8 0#8 1#8 ∧ decode 0x40FFFFFF#32 = .sample 0xFF#8 0xFF#8 0xFF#8 := by
  decide

theorem witness_TopSampleBitsIgnored :
    0x40043E39#32 ||| 0x0000C000#32 = 0x4004FE39#32 ||| 0x0000C000#32 ∧
    0x40043E39#32 &&& 0xC0000000#32 = 0x40000000#32 := by decide

theorem witness_AssemblerSampleLine :
    (255 ≤ 255 ∧ 0 ≤ 255 ∧ 1 ≤ 1 ∧ 1 ≤ 255) ∧ (1 ≤ 255 ∧ 255 ≤ 255) ∧ (0 = 0 ∨ 255 < 0) ∧
    (256 = 0 ∨ 255 < 256) := by decide

theorem witness_AssemblerPseudoLines :
    (16383 ≤ 16383 ∧ 1 ≤ 1 ∧ 1 ≤ 255) ∧ (0 ≤ 16383 ∧ 1 ≤ 255 ∧ 255 ≤ 255) := by decide

theorem witness_SkipCompletes :
    (0x3FFFFFFF#32).toNat ≤ 0x3FFFFFFF ∧ (0#32).toNat ≤ 0x3FFFFFFF := by decide

theorem witness_SampleCompletes : 2 ≤ 2 ∧ (1#8 : Byte) ≠ 0#8 ∧ (255#8 : Byte) ≠ 0#8 := by decide

theorem witness_SampleWordCompletes :
    2 ≤ 2 ∧ 0x40010000#32 &&& 0xFF000000#32 = 0x40000000#32 ∧ 0x40010000#32 &&& 0x00FF0000#32 ≠ 0#32 ∧
    0x40FFFFFF#32 &&& 0xFF000000#32 = 0x40000000#32 ∧ 0x40FFFFFF#32 &&& 0x00FF0000#32 ≠ 0#32 := by decide

theorem witness_StepRunsDecodedCommand :
    (stateWith 0#14 0#32 [0x40040000#32, 0#32]).block.rst = false ∧
    (stateWith 0#14 0#32 [0x40040000#32, 0#32]).block.everReset = true ∧
    (stateWith 0#14 0#32 [0x40040000#32, 0#32]).block.inFlight = [0x40040000#32, 0#32] := by decide

theorem witness_IdleStepOnlyClearsResponse :
    (Block.reset 2).rst = false ∧ (Block.reset 2).inFlight = [] := by decide

theorem witness_FetchWordRunsNext : 0x40042001 < 2 ^ 32 ∧ 0xFFFFFFFF < 2 ^ 32 := by decide

theorem witness_AcceptedWordsQueueInOrder : (Block.reset 2).rst = false := by decide

theorem witness_ResetCycle : ((Block.reset 2).setRst true).rst = true := by decide

theorem witness_OnlyCommandsBeforeResetFault :
    ((Block.reset 2).everReset = true ∧ ((Block.powerUp 2).setRst true).rst = true ∧
      (Block.powerUp 2).inFlight = []) ∧
    ((Block.powerUp 2).accept true 0#32).everReset = false ∧ ((Block.powerUp 2).accept true 0#32).rst = false ∧
    ((Block.powerUp 2).accept true 0#32).inFlight ≠ [] := by
  refine ⟨⟨rfl, rfl, rfl⟩, rfl, rfl, ?_⟩; simp [Block.powerUp]

theorem witness_PortsShowState :
    (Block.reset 2).outPorts.rspValid = false ∧
    ∃ q, ((Block.reset 2).retire (raiseIllegal .reservedOp (Regs.reset 2))).rst = false ∧
      ((Block.reset 2).retire (raiseIllegal .reservedOp (Regs.reset 2))).rsp = some q := by
  exact ⟨by decide, _, rfl, rfl⟩

theorem witness_StepKeepsInvariant :
    (stateWith 0#14 0#2 [0x40042001#32]).Inv ∧
    ∃ t, step (stateWith 0#14 0#2 [0x40042001#32]) = .next t ∧ t.block.rsp ≠ none := by
  refine ⟨⟨by decide, ?_, fun _ => rfl⟩, _, rfl, by decide⟩
  intro q hq; cases hq

theorem witness_WidthIsAParameter : ∃ t, step (stateWith 0#14 0#2 [0x40042001#32]) = .next t := ⟨_, rfl⟩

theorem witness_ResetHasInvariant : 2 ≤ 2 := by decide

theorem witness_OnlyResetClearsStickyFlags :
    ∃ t, step ⟨2, { Block.reset 2 with regs := ⟨0#14, 0#2, true, true⟩, rst := true }⟩ = .next t ∧
      t.block.regs.ovf = false ∧ t.block.regs.ill = false := ⟨_, rfl, rfl, rfl⟩

theorem witness_StepsRetireInOrder :
    (stateWith 0#14 0#32 [0x400401C7#32, 0x00000000#32, 0x40043E39#32]).block.rst = false ∧
    (stateWith 0#14 0#32 [0x400401C7#32, 0x00000000#32, 0x40043E39#32]).block.everReset = true ∧
    (shownResponses 3 (stateWith 0#14 0#32 [0x400401C7#32, 0x00000000#32, 0x40043E39#32])).length = 2 := by
  decide

/-- Two pipelines of different widths, the first reset between its commands. -/
theorem witness_InstancesAreIndependent :
    (fleetRun [⟨2, Regs.reset 2⟩, ⟨32, Regs.reset 32⟩]
      [(0, .command 0x40042001#32), (1, .command 0xFFFFFFFF#32), (0, .reset), (5, .reset)]).1 =
      [⟨2, Regs.reset 2⟩, ⟨32, ⟨0#14, 0#32, false, true⟩⟩] := by decide

theorem witness_RawSampleFourToOne :
    rawSample 0xFE#8 0x39#8 = rawSample 0x3E#8 0x39#8 ∧ elecDeg 16383#14 = elecDeg 16383#14 := by
  exact ⟨by decide, rfl⟩

theorem witness_DetectorStepRule :
    8192 < delta 8193#14 0#14 ∧ delta 0#14 8193#14 < -8192 ∧
    (-8192 ≤ delta 8192#14 0#14 ∧ delta 8192#14 0#14 ≤ 8192) ∧
    (-8192 ≤ delta 0#14 8192#14 ∧ delta 0#14 8192#14 ≤ 8192) := by decide

/-- A register set at the narrowest legal width, for the statements about every width. -/
def narrow (prev : Raw) (wc : BitVec 2) : Regs 2 := ⟨prev, wc, false, false⟩

theorem witness_WrapCountUpdateAndOverflow :
    (∃ r' q, commandEffect (.sample 0#8 0#8 1#8) (narrow 8193#14 1#2) = (r', some q) ∧
      (narrow 8193#14 1#2).wc.toInt = 2 ^ (2 - 1) - 1 ∧ q.step = 1#2) ∧
    (∃ r' q, commandEffect (.sample 0x20#8 1#8 1#8) (narrow 0#14 2#2) = (r', some q) ∧
      (narrow 0#14 2#2).wc.toInt = -2 ^ (2 - 1) ∧ q.step = 3#2) ∧
    (∃ r' q, commandEffect (.sample 0x20#8 0#8 1#8) (narrow 0#14 1#2) = (r', some q) ∧ q.step = 0#2) := by
  exact ⟨⟨_, _, rfl, by decide, by decide⟩, ⟨_, _, rfl, by decide, by decide⟩, ⟨_, _, rfl, by decide⟩⟩

theorem witness_PositionMovesAtMostHalfTurn :
    (∃ r' q, commandEffect (.sample 0x20#8 1#8 1#8) (narrow 0#14 0#2) = (r', some q) ∧
      wcOverflows 2 ((narrow 0#14 0#2).wc.toInt + q.step.toInt) = false ∧ 8192 < delta r'.prev 0#14) ∧
    (∃ r' q, commandEffect (.sample 0#8 0#8 1#8) (narrow 8193#14 0#2) = (r', some q) ∧
      wcOverflows 2 ((narrow 8193#14 0#2).wc.toInt + q.step.toInt) = false ∧
      delta r'.prev 8193#14 < -8192) ∧
    (∃ r' q, commandEffect (.sample 0x20#8 0#8 1#8) (narrow 0#14 0#2) = (r', some q) ∧
      wcOverflows 2 ((narrow 0#14 0#2).wc.toInt + q.step.toInt) = false ∧ delta r'.prev 0#14 = 8192) := by
  exact ⟨⟨_, _, rfl, by decide, by decide⟩, ⟨_, _, rfl, by decide, by decide⟩,
    ⟨_, _, rfl, by decide, by decide⟩⟩

/-- An honest run of a failed read and two samples, up by 8191 counts and down by 8191 past the seam. -/
theorem witness_WrapCountTracksTruePosition :
    (Regs.reset 2).position = 0 ∧
    Feeds 2 0 [0x40041FFF#32, 0x00000000#32, 0x40040000#32, 0x40042001#32] (-8191) := by
  refine ⟨by decide, ?_⟩
  show ∃ t1 : Int, _ ∧ _ ∧ _ ∧ _
  refine ⟨8191, by decide, by decide, ⟨by decide, by decide⟩, ?_⟩
  show ∃ t1 : Int, _ ∧ _ ∧ _ ∧ _
  refine ⟨0, by decide, by decide, ⟨by decide, by decide⟩, ?_⟩
  show ∃ t1 : Int, _ ∧ _ ∧ _ ∧ _
  exact ⟨-8191, by decide, by decide, ⟨by decide, by decide⟩, rfl⟩

theorem witness_WrapCountMovesByAtMostOne :
    2 ≤ 2 ∧ decode 0x40040000#32 = .sample 0#8 0#8 4#8 ∧
    detectorStep (delta (rawSample 0#8 0#8) 8193#14) = 1 ∧ (1#2).toInt = 2 ^ (2 - 1) - 1 ∧
    detectorStep (delta (rawSample 0x20#8 1#8) 0#14) = -1 ∧ (2#2).toInt = -2 ^ (2 - 1) := by decide

theorem witness_WrapCountMovesByAtMostOne_other :
    ∀ byte0 byte1 pp, decode 0x80000000#32 ≠ .sample byte0 byte1 pp := by
  intro _ _ _ h; cases h

theorem witness_FirstSampleTransient :
    2 ≤ 2 ∧ (1#8 : Byte) ≠ 0#8 ∧ (rawSample 0x20#8 0#8).toNat = 8192 ∧
    8192 < (rawSample 0x20#8 1#8).toNat := by decide

theorem witness_UnwrappedIsConcatenation : 2 ≤ 2 ∧ 2 ≤ 32 := by decide

theorem witness_ScalerMatchesReference : (1#8 : Byte) ≠ 0#8 ∧ (255#8 : Byte) ≠ 0#8 := by decide

theorem witness_ResolutionAndIdentity : 1 ≤ 1 ∧ 1 ≤ 255 := by decide

theorem witness_MechNumNarrowForm :
    (4#8 : Byte) ≠ 0#8 ∧ 2 ≤ 2 ∧ (4#8 : Byte).toNat = 2 ^ 2 ∧ 7 ≤ 32 ∧ (128#8 : Byte).toNat = 2 ^ 7 := by
  decide

theorem witness_MechanicalAngleRange :
    ((4177919 : Nat) : Int) = mechNumerator (unwrappedCounts (-1#32) 16383#14) (polePairs 255#8) ∧
    ((0 : Nat) : Int) = mechNumerator (unwrappedCounts (4#32) 0#14) (polePairs 4#8) ∧
    2 ≤ 2 ∧ (1#8 : Byte) ≠ 0#8 := by decide

theorem witness_OutputDependsOnWrapCountModP :
    ((5#32).toInt % ((4#8 : Byte).toNat : Int) = (1#32).toInt % ((4#8 : Byte).toNat : Int)) ∧
    ((1#2).toInt = (0#2).toInt + ((1#8 : Byte).toNat : Int)) ∧
    ((1#2).toInt = (0#2).toInt + 1) ∧ ((4#8 : Byte).toNat ∣ 2 ^ 2) ∧ (¬ (3#8 : Byte).toNat ∣ 2 ^ 2) ∧
    wcOverflows 2 2 = true ∧ wcOverflows 2 (-3) = true := by decide

theorem witness_MechanicalAngleContinuity :
    ∃ r1 q1 r2 q2, commandEffect (.sample 0x3F#8 0xFF#8 4#8) (narrow 0#14 0#2) = (r1, some q1) ∧
      commandEffect (.sample 0#8 0#8 4#8) r1 = (r2, some q2) ∧
      wcOverflows 2 (r1.wc.toInt + q2.step.toInt) = false := by
  exact ⟨_, _, _, _, rfl, rfl, by decide⟩

theorem witness_SampleRefinesReference :
    ∃ r' q, commandEffect (.sample 0x3E#8 0x39#8 4#8) (⟨455#14, 0#32, false, false⟩ : Regs 32) = (r', some q) ∧
      wcOverflows 32 ((0#32).toInt + q.step.toInt) = false := by
  exact ⟨_, _, rfl, by decide⟩

theorem witness_DecreasingSequence :
    ((180 : Rat) < 350 ∧ (350 : Rat) < 360) ∧
    ((0 : Rat) ≤ 340 ∧ (340 : Rat) ≤ 350 ∧ (350 : Rat) < 360 ∧ (350 : Rat) - 340 ≤ 180) ∧
    ((0 : Rat) ≤ 0 ∧ (0 : Rat) ≤ 180 ∧ (180 : Rat) < 360 ∧ (180 : Rat) - 0 ≤ 180) := by norm_num

theorem witness_RepeatedSampleKeepsWrapCount :
    (4#8 : Byte) ≠ 0#8 ∧ rawSample 0xFE#8 0x39#8 = (⟨15929#14, -1#32, false, false⟩ : Regs 32).prev := by
  decide

theorem witness_WrapCountIsSumOfSteps :
    (runWords (Regs.reset 2) [0x40042001#32, 0x40040000#32]).1.ovf = false := by decide

theorem witness_LatencyChangesNothing :
    ∀ p ∈ [Pins.mk false true 0x40042001#32, Pins.mk false false 0#32], p.rst = false := by decide

theorem witness_ResetBeginsNewRun : (Pins.mk true true 0x40042001#32).rst = true := by decide

end Sys2Proof.Tests
end

/-! PROOFS. The family 10_state.md: the state after reset (R20) and what one command does to the wrap count (R15). -/

namespace Sys2Proof.Machine

/-! ### The reset state -/

section

variable {w : Nat}

@[simp] theorem Regs.reset_prev : (Regs.reset w).prev = 0#14 := rfl
@[simp] theorem Regs.reset_wc : (Regs.reset w).wc = 0#w := rfl
@[simp] theorem Regs.reset_ovf : (Regs.reset w).ovf = false := rfl
@[simp] theorem Regs.reset_ill : (Regs.reset w).ill = false := rfl

/-- `rsp_valid` is 1 exactly while a response is visible (30_encoding.md R41). -/
@[simp] theorem Block.outPorts_rspValid (b : Block w) : b.outPorts.rspValid = b.visibleRsp.isSome := rfl

theorem Block.reset_visibleRsp : (Block.reset w).visibleRsp = none :=
  Block.visibleRsp_of_not_rst Block.reset_rst

theorem Block.reset_rspValid : (Block.reset w).outPorts.rspValid = false := by
  rw [Block.outPorts_rspValid, Block.reset_visibleRsp, Option.isSome_none]

end

/-- Settles O22: the registers by the fields of `Regs.reset`, the response port because nothing is on it; the one
machine `State.reset` is the case of the default width. -/
theorem resetState : Obligations.ResetState := by
  unfold Obligations.ResetState
  refine ⟨fun w => ?everyWidth, ?defaultWidth⟩
  case everyWidth =>
    exact ⟨Regs.reset_prev, Regs.reset_wc, Regs.reset_ovf, Regs.reset_ill, Block.reset_inFlight, Block.reset_rspValid⟩
  case defaultWidth =>
    rw [State.reset_eq]
    exact ⟨Block.reset_regs, Block.reset_inFlight, Block.reset_rspValid⟩

/-! ### The detector's step and the wrapped sum -/

theorem detectorStep_values (d : Int) : detectorStep d = -1 ∨ detectorStep d = 0 ∨ detectorStep d = 1 := by
  rcases detectorStep_cases d with ⟨down, _⟩ | ⟨up, _⟩ | ⟨still, _⟩
  · exact .inl down
  · exact .inr (.inr up)
  · exact .inr (.inl still)

/-- The threshold is strict on both sides (41_wraparound_detector.md R73). -/
theorem detectorStep_ne_zero_iff (d : Int) : detectorStep d ≠ 0 ↔ 8192 < |d| := by
  rw [lt_abs]
  rcases detectorStep_cases d with ⟨hs, hd⟩ | ⟨hs, hd⟩ | ⟨hs, hd⟩ <;> rw [hs] <;> omega

section

variable {w : Nat} {s : Int}

theorem wcOverflows_iff (w : Nat) (z : Int) :
    wcOverflows w z = true ↔ z < -(2 ^ (w - 1)) ∨ 2 ^ (w - 1) - 1 < z :=
  decide_eq_true_iff

/-- A step leaves the range only upwards from its top and downwards from its bottom
(41_wraparound_detector.md R78). -/
theorem wcOverflows_wrapSum_iff (wc : BitVec w) (hs : s = -1 ∨ s = 0 ∨ s = 1) :
    wcOverflows w (wrapSum wc s) = true ↔
      wc.toInt = 2 ^ (w - 1) - 1 ∧ s = 1 ∨ wc.toInt = -2 ^ (w - 1) ∧ s = -1 := by
  have := toInt_bounds wc
  rw [wcOverflows_iff, wrapSum]
  omega

theorem wrapTo_wrapSum_top {wc : BitVec w} (hw : 2 ≤ w) (hwc : wc.toInt = 2 ^ (w - 1) - 1) :
    (wrapTo w (wrapSum wc 1)).toInt = -2 ^ (w - 1) := by
  rw [wrapSum, hwc, sub_add_cancel, wrapTo_past_top hw]

theorem wrapTo_wrapSum_bottom {wc : BitVec w} (hw : 2 ≤ w) (hwc : wc.toInt = -2 ^ (w - 1)) :
    (wrapTo w (wrapSum wc (-1))).toInt = 2 ^ (w - 1) - 1 := by
  rw [wrapSum, hwc, ← sub_eq_add_neg, wrapTo_past_bottom hw]

/-- What the wrap-count register and the overflow test show after a step: at either end of the range the count goes to
the other end with an overflow, elsewhere it moves by the step without one (41_wraparound_detector.md R75, R78). -/
theorem wrapTo_wrapSum_ends (hw : 2 ≤ w) (wc : BitVec w) (hs : s = -1 ∨ s = 0 ∨ s = 1) :
    if wc.toInt = 2 ^ (w - 1) - 1 ∧ s = 1 then
      (wrapTo w (wrapSum wc s)).toInt = -2 ^ (w - 1) ∧ wcOverflows w (wrapSum wc s) = true
    else if wc.toInt = -2 ^ (w - 1) ∧ s = -1 then
      (wrapTo w (wrapSum wc s)).toInt = 2 ^ (w - 1) - 1 ∧ wcOverflows w (wrapSum wc s) = true
    else (wrapTo w (wrapSum wc s)).toInt = wc.toInt + s ∧ wcOverflows w (wrapSum wc s) = false := by
  have overflow := wcOverflows_wrapSum_iff wc hs
  split_ifs with top bottom
  · obtain ⟨hwc, rfl⟩ := top
    exact ⟨wrapTo_wrapSum_top hw hwc, overflow.mpr (.inl ⟨hwc, rfl⟩)⟩
  · obtain ⟨hwc, rfl⟩ := bottom
    exact ⟨wrapTo_wrapSum_bottom hw hwc, overflow.mpr (.inr ⟨hwc, rfl⟩)⟩
  · have inRange : wcOverflows w (wrapSum wc s) = false :=
      Bool.eq_false_iff.mpr fun h => (overflow.mp h).elim top bottom
    exact ⟨wrapTo_toInt (by omega) inRange, inRange⟩

end

/-! ### One command and the wrap count -/

/-- A word is a `SAMPLE`, which the decoder gives only with a legal operand, or it leaves the wrap count alone
(43_pipeline_commands.md R106, R110; 60_exceptions.md R128). -/
theorem pipelineExec_sample_or_wc {w : Nat} (r : Regs w) (cmd : Word) :
    (∃ byte0 byte1 pp, decode cmd = .sample byte0 byte1 pp ∧
      pipelineExec r cmd = sampleEffect byte0 byte1 pp r) ∨
    ((∀ byte0 byte1 pp, decode cmd ≠ .sample byte0 byte1 pp) ∧ (pipelineExec r cmd).1.wc = r.wc) := by
  rcases decode_cases cmd with ⟨h, _⟩ | ⟨h, _⟩ | ⟨h, _⟩ | ⟨h, _⟩ | ⟨h, legal, _⟩
  case inr.inr.inr.inr =>
    refine .inl ⟨_, _, _, h, ?_⟩
    rw [pipelineExec, h]
    exact sampleOrIllegal_legal legal r
  all_goals exact .inr (by simp [pipelineExec, commandEffect, h])

/-- Settles O34: the step is the detector's for a `SAMPLE`, where the register takes the wrapped sum, and 0 for a
command that leaves the wrap count alone. -/
theorem wrapCountMovesByAtMostOne : Obligations.WrapCountMovesByAtMostOne := by
  unfold Obligations.WrapCountMovesByAtMostOne
  intro w r cmd hw
  rcases pipelineExec_sample_or_wc r cmd with ⟨byte0, byte1, pp, hdec, heff⟩ | ⟨hdec, hwc⟩
  · have hs := detectorStep_values (delta (rawSample byte0 byte1) r.prev)
    refine ⟨detectorStep (delta (rawSample byte0 byte1) r.prev), hs, ?stepOfSample,
      fun other => absurd hdec (other byte0 byte1 pp), ?pattern, ?threshold, ?ends⟩
    case stepOfSample =>
      intro b0 b1 p h
      obtain ⟨rfl, rfl, rfl⟩ := Instr.sample.inj (hdec.symm.trans h)
      rfl
    case pattern => rw [heff]; rfl
    case threshold => exact fun moved => ⟨byte0, byte1, pp, hdec, (detectorStep_ne_zero_iff _).mp moved⟩
    case ends =>
      have ends := wrapTo_wrapSum_ends hw r.wc hs
      rw [heff, sampleEffect_wc, sampleEffect_ovf]
      split_ifs at ends ⊢ with top bottom
      · exact ⟨ends.1, by rw [ends.2, Bool.or_true]⟩
      · exact ⟨ends.1, by rw [ends.2, Bool.or_true]⟩
      · exact ends.1
  · refine ⟨0, .inr (.inl rfl), fun b0 b1 p h => absurd h (hdec b0 b1 p), fun _ => rfl, ?pattern,
      fun h => absurd rfl h, ?ends⟩
    case pattern => rw [hwc, add_zero, BitVec.ofInt_toInt]
    case ends => simp [hwc]

end Sys2Proof.Machine

/-! PROOFS. The family 30_encoding.md: the decoder's rows in numbers and in masks (R45, R47, R48), the bits a `SAMPLE`
ignores (R46), the assembler's pseudo-lines (R56), and `SKIP` (43_pipeline_commands.md R110). -/

namespace Sys2Proof

/-! ### The rows of the decoder -/

section

variable {cmd : Word}

/-- The words of each row as a range of numbers (30_encoding.md R47, R48). -/
theorem decode_rows (cmd : Word) :
    (decode cmd = .skip ↔ cmd.toNat < 0x40000000) ∧
    (decode cmd = .illegalReservedOp ↔ 0x80000000 ≤ cmd.toNat) ∧
    (decode cmd = .illegalReservedBits ↔ 0x41000000 ≤ cmd.toNat ∧ cmd.toNat < 0x80000000) ∧
    (decode cmd = .illegalZeroPolePairs ↔ 0x40000000 ≤ cmd.toNat ∧ cmd.toNat < 0x40010000) ∧
    ((∃ byte0 byte1 pp, decode cmd = .sample byte0 byte1 pp) ↔
      0x40010000 ≤ cmd.toNat ∧ cmd.toNat < 0x41000000) := by
  rcases decode_cases cmd with ⟨row, _⟩ | ⟨row, _⟩ | ⟨row, _⟩ | ⟨row, _⟩ | ⟨row, _, _⟩ <;>
    simp [row] <;> omega

/-- A word in the range of `SAMPLE` is read as its three fields. -/
theorem decode_eq_sample_fields (low : 0x40010000 ≤ cmd.toNat) (high : cmd.toNat < 0x41000000) :
    decode cmd = .sample (byte0Field cmd) (byte1Field cmd) (ppField cmd) := by
  rcases decode_cases cmd with ⟨_, _⟩ | ⟨_, _⟩ | ⟨_, _⟩ | ⟨_, _⟩ | ⟨row, _⟩
  case inr.inr.inr.inr => exact row
  all_goals omega

theorem byte0Field_eq_ofNat (cmd : Word) : byte0Field cmd = BitVec.ofNat 8 (cmd.toNat / 256) :=
  BitVec.eq_of_toNat_eq (by rw [byte0Field_toNat, BitVec.toNat_ofNat]; rfl)

theorem byte1Field_eq_ofNat (cmd : Word) : byte1Field cmd = BitVec.ofNat 8 cmd.toNat :=
  BitVec.eq_of_toNat_eq (by rw [byte1Field_toNat, BitVec.toNat_ofNat])

theorem ppField_eq_ofNat (cmd : Word) : ppField cmd = BitVec.ofNat 8 (cmd.toNat / 65536) :=
  BitVec.eq_of_toNat_eq (by rw [ppField_toNat, BitVec.toNat_ofNat]; rfl)

/-- The decoding procedure on the word as a number (30_encoding.md R48). -/
theorem decode_eq_on_number (cmd : Word) :
    decode cmd =
      if cmd.toNat / 2 ^ 30 = 0 then .skip
      else if cmd.toNat / 2 ^ 31 = 1 then .illegalReservedOp
      else if cmd.toNat / 2 ^ 24 % 64 ≠ 0 then .illegalReservedBits
      else if cmd.toNat / 2 ^ 16 % 256 = 0 then .illegalZeroPolePairs
      else .sample (BitVec.ofNat 8 (cmd.toNat / 256)) (BitVec.ofNat 8 cmd.toNat)
        (BitVec.ofNat 8 (cmd.toNat / 65536)) := by
  obtain ⟨skip, reservedOp, reservedBits, zeroPolePairs, _⟩ := decode_rows cmd
  have := cmd.isLt
  split_ifs
  · exact skip.mpr (by omega)
  · exact reservedOp.mpr (by omega)
  · exact reservedBits.mpr (by omega)
  · exact zeroPolePairs.mpr (by omega)
  · rw [decode_eq_sample_fields (by omega) (by omega), byte0Field_eq_ofNat, byte1Field_eq_ofNat, ppField_eq_ofNat]

/-! ### Masks as ranges -/

/-- A word matches a value under a mask of `m` bits at bit `k` exactly when the number of that field does. -/
theorem and_mask_eq_iff (cmd : Word) (m k : Nat) {mask value : Word} (hmask : mask.toNat = (2 ^ m - 1) * 2 ^ k) :
    cmd &&& mask = value ↔ cmd.toNat / 2 ^ k % 2 ^ m * 2 ^ k = value.toNat := by
  rw [← BitVec.toNat_inj, word_and_field cmd m k mask hmask]

/-- `OP`, the top two bits, is 0. -/
theorem opMask_eq_zero_iff (cmd : Word) : cmd &&& 0xC0000000#32 = 0x00000000#32 ↔ cmd.toNat < 0x40000000 := by
  have := cmd.isLt
  rw [and_mask_eq_iff cmd 2 30 rfl]
  simp only [BitVec.toNat_ofNat]
  omega

theorem opMask_eq_one_iff (cmd : Word) :
    cmd &&& 0xC0000000#32 = 0x40000000#32 ↔ 0x40000000 ≤ cmd.toNat ∧ cmd.toNat < 0x80000000 := by
  have := cmd.isLt
  rw [and_mask_eq_iff cmd 2 30 rfl]
  simp only [BitVec.toNat_ofNat]
  omega

theorem rsvMask_eq_zero_iff (cmd : Word) : cmd &&& 0x3F000000#32 = 0#32 ↔ cmd.toNat / 0x1000000 % 64 = 0 := by
  rw [and_mask_eq_iff cmd 6 24 rfl]
  simp only [BitVec.toNat_ofNat]
  omega

theorem ppMask_eq_zero_iff (cmd : Word) : cmd &&& 0x00FF0000#32 = 0#32 ↔ cmd.toNat / 0x10000 % 256 = 0 := by
  rw [and_mask_eq_iff cmd 8 16 rfl]
  simp only [BitVec.toNat_ofNat]
  omega

/-- `OP = 0b01` with `RSV = 0`. -/
theorem opRsvMask_eq_iff (cmd : Word) :
    cmd &&& 0xFF000000#32 = 0x40000000#32 ↔ 0x40000000 ≤ cmd.toNat ∧ cmd.toNat < 0x41000000 := by
  have := cmd.isLt
  rw [and_mask_eq_iff cmd 8 24 rfl]
  simp only [BitVec.toNat_ofNat]
  omega

/-- `OP = 0b01` with `RSV = 0` and `PP = 0`. -/
theorem opRsvPpMask_eq_iff (cmd : Word) :
    cmd &&& 0xFFFF0000#32 = 0x40000000#32 ↔ 0x40000000 ≤ cmd.toNat ∧ cmd.toNat < 0x40010000 := by
  have := cmd.isLt
  rw [and_mask_eq_iff cmd 16 16 rfl]
  simp only [BitVec.toNat_ofNat]
  omega

theorem sampleMasks_iff (cmd : Word) :
    cmd &&& 0xFF000000#32 = 0x40000000#32 ∧ cmd &&& 0x00FF0000#32 ≠ 0#32 ↔
      0x40010000 ≤ cmd.toNat ∧ cmd.toNat < 0x41000000 := by
  rw [opRsvMask_eq_iff, Ne, ppMask_eq_zero_iff]
  omega

theorem reservedBitsMasks_iff (cmd : Word) :
    cmd &&& 0xC0000000#32 = 0x40000000#32 ∧ cmd &&& 0x3F000000#32 ≠ 0#32 ↔
      0x41000000 ≤ cmd.toNat ∧ cmd.toNat < 0x80000000 := by
  rw [opMask_eq_one_iff, Ne, rsvMask_eq_zero_iff]
  omega

end

/-! ### Words that differ in `cmd[15:14]` only -/

section

variable {cmd cmd' : Word}

/-- Forcing bits to 1 that a field does not hold leaves the field. -/
theorem extractLsb'_congr_of_or {mask : Word} (same : cmd ||| mask = cmd' ||| mask) (start len : Nat)
    (clear : mask.extractLsb' start len = 0#len) : cmd.extractLsb' start len = cmd'.extractLsb' start len := by
  have h := congrArg (BitVec.extractLsb' start len) same
  simpa only [BitVec.extractLsb'_or, clear, BitVec.or_zero] using h

/-- The first test on `OP` (30_encoding.md R48) is on a bit of that field. -/
theorem topBit_eq_opField (cmd : Word) : cmd.getLsbD 31 = (opField cmd).getLsbD 1 := by
  simp [opField]

/-- What the decoder tests is the same for two words that agree on `OP`, `RSV` and `PP`: they are in the same row, and
only a `SAMPLE` keeps anything else of its word. -/
theorem decode_congr_of_fields (op : opField cmd = opField cmd') (rsv : rsvField cmd = rsvField cmd')
    (pp : ppField cmd = ppField cmd') :
    decode cmd = decode cmd' ∨
      (decode cmd = .sample (byte0Field cmd) (byte1Field cmd) (ppField cmd') ∧
        decode cmd' = .sample (byte0Field cmd') (byte1Field cmd') (ppField cmd')) := by
  simp only [decode, topBit_eq_opField, op, rsv, pp]
  split_ifs
  case neg => exact .inr ⟨rfl, rfl⟩
  all_goals exact .inl rfl

end

end Sys2Proof

namespace Sys2Proof.Machine

section

variable {w : Nat} {cmd : Word}

/-- The RawSample of a word is its low 14 bits: bits 15:14 are dropped (30_encoding.md R46, 40_angle_decoder.md R61). -/
theorem rawSample_fields (cmd : Word) : rawSample (byte0Field cmd) (byte1Field cmd) = cmd.extractLsb' 0 14 := by
  apply BitVec.eq_of_toNat_eq
  rw [rawSample_toNat, byte0Field_toNat, byte1Field_toNat, BitVec.extractLsb'_toNat, Nat.shiftRight_zero]
  omega

/-- A `SAMPLE` uses its two bytes through the RawSample alone (43_pipeline_commands.md R106). -/
theorem commandEffect_sample_congr {byte0 byte1 byte0' byte1' : Byte}
    (raw : rawSample byte0 byte1 = rawSample byte0' byte1') (pp : Byte) (r : Regs w) :
    commandEffect (.sample byte0 byte1 pp) r = commandEffect (.sample byte0' byte1' pp) r := by
  simp only [commandEffect, sampleOrIllegal, sampleEffect, raw]

theorem isIllegal_of_sample {byte0 byte1 pp : Byte} (row : decode cmd = .sample byte0 byte1 pp) :
    isIllegal cmd = false := by
  simp only [isIllegal, row]

theorem isIllegal_of_skip (row : decode cmd = .skip) : isIllegal cmd = false := by
  simp only [isIllegal, row]

theorem isIllegal_congr {cmd' : Word} (row : decode cmd = decode cmd') : isIllegal cmd = isIllegal cmd' := by
  simp only [isIllegal, row]

/-- A word that is not illegal is a `SKIP` or a `SAMPLE` with a legal operand (30_encoding.md R47). -/
theorem decode_of_not_isIllegal (legal : isIllegal cmd = false) :
    decode cmd = .skip ∨ ∃ byte0 byte1 pp, pp ≠ 0#8 ∧ decode cmd = .sample byte0 byte1 pp := by
  rcases decode_cases cmd with ⟨row, _⟩ | ⟨row, _⟩ | ⟨row, _⟩ | ⟨row, _⟩ | ⟨row, hpp, _⟩
  · exact .inl row
  case inr.inr.inr.inr => exact .inr ⟨_, _, _, hpp, row⟩
  all_goals simp [isIllegal, row] at legal

/-- An illegal word takes the exception with the first cause that applies, at every width (30_encoding.md R47,
60_exceptions.md R128). -/
theorem commandEffect_of_isIllegal (illegal : isIllegal cmd = true) (r : Regs w) :
    ∃ c, commandEffect (decode cmd) r = raiseIllegal c r ∧
      causeCode c =
        if 0x80000000 ≤ cmd.toNat then 1#2 else if cmd &&& 0x3F000000#32 ≠ 0#32 then 2#2 else 3#2 := by
  rcases decode_cases cmd with ⟨row, _⟩ | ⟨row, high⟩ | ⟨row, low, high⟩ | ⟨row, low, high⟩ | ⟨row, _⟩
  · simp [isIllegal_of_skip row] at illegal
  · refine ⟨.reservedOp, by rw [row]; rfl, ?_⟩
    rw [if_pos high]; rfl
  · refine ⟨.reservedBits, by rw [row]; rfl, ?_⟩
    rw [if_neg (by omega), if_pos ((reservedBitsMasks_iff cmd).mpr ⟨low, high⟩).2]; rfl
  · have noReserved : cmd &&& 0x3F000000#32 = 0#32 := (rsvMask_eq_zero_iff cmd).mpr (by omega)
    refine ⟨.zeroPolePairs, by rw [row]; rfl, ?_⟩
    rw [if_neg (by omega), if_neg (not_not.mpr noReserved)]; rfl
  · simp [isIllegal_of_sample row] at illegal

/-- A `SKIP` retires with nothing but an empty response port (43_pipeline_commands.md R110). -/
theorem exec_skip (b : Block w) : exec .skip ⟨w, b⟩ = .next ⟨w, { b with rsp := none }⟩ :=
  exec_eq_retire .skip ⟨w, b⟩

/-! ### The assembler's `SAMPLE` line -/

/-- The word a legal `SAMPLE` line presents, as a number (30_encoding.md R55). -/
theorem assembleSample_toNat {b0 b1 pp : Nat} (h0 : b0 ≤ 255) (h1 : b1 ≤ 255) (hpp : 1 ≤ pp) (hpp' : pp ≤ 255) :
    ∃ cmd : Word, assembleSample b0 b1 pp = some (.present cmd) ∧
      cmd.toNat = 0x40000000 + pp * 65536 + b0 * 256 + b1 := by
  refine ⟨_, if_pos ⟨hpp, hpp', h0, h1⟩, ?_⟩
  rw [BitVec.toNat_ofNat, Nat.mod_eq_of_lt (by omega)]

/-- A `SAMPLER` line is the `SAMPLE` line of the high and low byte of its raw (30_encoding.md R56). -/
theorem assemble_sampler {raw : Nat} (hraw : raw ≤ 16383) (pp : Nat) :
    assemble (.sampler raw pp) = assembleSample (raw / 256) (raw % 256) pp :=
  if_pos hraw

end

/-! ### The statements -/

/-- Settles O1: the procedure on the number, then each mask form as the range of words of its row. -/
theorem decodeByMatchAndMask : Obligations.DecodeByMatchAndMask := by
  unfold Obligations.DecodeByMatchAndMask
  intro cmd
  obtain ⟨skip, _, _, _, sample⟩ := decode_rows cmd
  exact ⟨decode_eq_on_number cmd, skip.trans (opMask_eq_zero_iff cmd).symm, sample.trans (sampleMasks_iff cmd).symm⟩

/-- Settles O2: the rows as ranges and masks, and what an illegal word does from the cause it raises. -/
theorem illegalWordsByCause : Obligations.IllegalWordsByCause := by
  unfold Obligations.IllegalWordsByCause
  intro cmd
  obtain ⟨_, reservedOp, reservedBits, zeroPolePairs, _⟩ := decode_rows cmd
  refine ⟨reservedOp, reservedBits.trans (reservedBitsMasks_iff cmd).symm,
    zeroPolePairs.trans (opRsvPpMask_eq_iff cmd).symm, decode_of_not_isIllegal, fun illegal w b => ?handled⟩
  case handled =>
    obtain ⟨c, effect, code⟩ := commandEffect_of_isIllegal illegal b.regs
    rw [exec_eq_retire, effect, ← code]
    rfl

/-- Settles O6: the two words agree on `OP`, `RSV`, `PP` and the 14 bits of the RawSample, and nothing reads more.
That `OP` is `0b01` is not needed: a word of any other `OP` ignores its low bits altogether. -/
theorem topSampleBitsIgnored : Obligations.TopSampleBitsIgnored := by
  unfold Obligations.TopSampleBitsIgnored
  intro cmd cmd' s same _
  have op : opField cmd = opField cmd' := extractLsb'_congr_of_or same 30 2 (by decide)
  have rsv : rsvField cmd = rsvField cmd' := extractLsb'_congr_of_or same 24 6 (by decide)
  have pp : ppField cmd = ppField cmd' := extractLsb'_congr_of_or same 16 8 (by decide)
  have low : cmd.extractLsb' 0 14 = cmd'.extractLsb' 0 14 := extractLsb'_congr_of_or same 0 14 (by decide)
  rcases decode_congr_of_fields op rsv pp with row | ⟨row, row'⟩
  · exact ⟨isIllegal_congr row, by rw [row]⟩
  · have raw : rawSample (byte0Field cmd) (byte1Field cmd) = rawSample (byte0Field cmd') (byte1Field cmd') := by
      rw [rawSample_fields, rawSample_fields, low]
    refine ⟨(isIllegal_of_sample row).trans (isIllegal_of_sample row').symm, ?_⟩
    rw [row, row', exec_eq_retire, exec_eq_retire, commandEffect_sample_congr raw]

/-- Settles O8: a `SAMPLER` line is the `SAMPLE` line of its two bytes, and its word is in the range of `SAMPLE`, where
the fields give back `raw` and the pole pairs. The other lines are equations of `assemble`. -/
theorem assemblerPseudoLines : Obligations.AssemblerPseudoLines := by
  unfold Obligations.AssemblerPseudoLines
  refine ⟨fun raw pp hraw hpp hpp' => ⟨assemble_sampler hraw pp, ?sampler⟩, fun _ _ => rfl, rfl, fun _ => rfl, rfl⟩
  case sampler =>
    obtain ⟨cmd, presented, number⟩ :=
      assembleSample_toNat (b0 := raw / 256) (b1 := raw % 256) (by omega) (by omega) hpp hpp'
    refine ⟨cmd, byte0Field cmd, byte1Field cmd, ppField cmd, (assemble_sampler hraw pp).trans presented, by omega,
      decode_eq_sample_fields (by omega) (by omega), ?byte0, ?raw, ?polePairs⟩
    case byte0 => rw [byte0Field_toNat]; omega
    case raw => rw [rawSample_fields, BitVec.extractLsb'_toNat, Nat.shiftRight_zero]; omega
    case polePairs => rw [ppField_toNat]; omega

/-- Settles O9: the words up to `0x3FFFFFFF` are the row of `SKIP`, whose effect is empty. -/
theorem skipCompletes : Obligations.SkipCompletes := by
  unfold Obligations.SkipCompletes
  refine ⟨fun w b => exec_skip b, fun cmd hcmd => ?words, rfl⟩
  case words =>
    obtain ⟨skip, _⟩ := decode_rows cmd
    have row : decode cmd = .skip := skip.mpr (by omega)
    refine ⟨row, isIllegal_of_skip row, fun w b => ?_⟩
    rw [row, exec_skip]

end Sys2Proof.Machine

/-! PROOFS. The family 40_angle_decoder.md: the RawSample of two bytes (R61, R63) and its electrical angle (R62, R66). -/

namespace Sys2Proof.Machine

/-! ### The RawSample -/

/-- The mask `0x3F` may be applied before or after the byte is widened to 14 bits. -/
theorem rawSample_eq_mask_shift_or (byte0 byte1 : Byte) :
    rawSample byte0 byte1 = ((byte0.setWidth 14 &&& 0x3F#14) <<< 8 ||| byte1.setWidth 14) := by
  have widened : (byte0 &&& 0x3F#8).setWidth 14 = byte0.setWidth 14 &&& 0x3F#14 := BitVec.setWidth_and
  rw [rawSample, widened]

theorem rawSample_eq_append (byte0 byte1 : Byte) : rawSample byte0 byte1 = byte0.extractLsb' 0 6 ++ byte1 := by
  apply BitVec.eq_of_toNat_eq
  rw [rawSample_toNat, BitVec.toNat_append, ← Nat.shiftLeft_add_eq_or_of_lt byte1.isLt, Nat.shiftLeft_eq,
    BitVec.extractLsb'_toNat, Nat.shiftRight_zero]

/-- The decoder keeps `byte1` and the low 6 bits of `byte0`, and nothing else (40_angle_decoder.md R66). -/
theorem rawSample_eq_iff (byte0 byte1 byte0' byte1' : Byte) :
    rawSample byte0 byte1 = rawSample byte0' byte1' ↔
      byte0.toNat % 64 = byte0'.toNat % 64 ∧ byte1 = byte1' := by
  have := byte1.isLt
  have := byte1'.isLt
  rw [← BitVec.toNat_inj, ← BitVec.toNat_inj (x := byte1), rawSample_toNat, rawSample_toNat]
  omega

theorem raw_toNat_le (raw : Raw) : raw.toNat ≤ 16383 :=
  Nat.le_of_lt_succ raw.isLt

/-! ### The electrical angle -/

/-- One count is 45/2048 of a degree (40_angle_decoder.md R62). -/
theorem elecDeg_eq_counts (raw : Raw) : elecDeg raw = (raw.toNat : Rat) * (45 / 2048) := by
  rw [elecDeg]; ring

theorem elecDeg_le_iff (raw raw' : Raw) : elecDeg raw ≤ elecDeg raw' ↔ raw.toNat ≤ raw'.toNat := by
  have count_pos : (0 : Rat) < 45 / 2048 := by norm_num
  rw [elecDeg_eq_counts, elecDeg_eq_counts, mul_le_mul_iff_of_pos_right count_pos, Nat.cast_le]

theorem elecDeg_lt_iff (raw raw' : Raw) : elecDeg raw < elecDeg raw' ↔ raw.toNat < raw'.toNat := by
  rw [← not_le, elecDeg_le_iff, not_le]

theorem elecDeg_injective : Function.Injective elecDeg := by
  intro raw raw' same
  have le : raw.toNat ≤ raw'.toNat := (elecDeg_le_iff raw raw').mp same.le
  have ge : raw'.toNat ≤ raw.toNat := (elecDeg_le_iff raw' raw).mp same.ge
  exact BitVec.eq_of_toNat_eq (le_antisymm le ge)

theorem elecDeg_least : elecDeg 0#14 = 0 := by
  rw [elecDeg_eq_counts]; norm_num

theorem elecDeg_greatest : elecDeg 16383#14 = 737235 / 2048 := by
  rw [elecDeg_eq_counts]; norm_num

theorem elecDeg_nonneg (raw : Raw) : 0 ≤ elecDeg raw := by
  rw [← elecDeg_least, elecDeg_le_iff]
  exact Nat.zero_le _

theorem elecDeg_le_greatest (raw : Raw) : elecDeg raw ≤ 737235 / 2048 := by
  rw [← elecDeg_greatest, elecDeg_le_iff]
  exact raw_toNat_le raw

theorem elecDeg_lt_turn (raw : Raw) : elecDeg raw < 360 :=
  (elecDeg_le_greatest raw).trans_lt (by norm_num)

/-! ### The statements -/

/-- Settles O28: the masked form, the number and the concatenation, one lemma each. -/
theorem rawSampleForms : Obligations.RawSampleForms := by
  unfold Obligations.RawSampleForms
  intro byte0 byte1
  exact ⟨rawSample_eq_mask_shift_or byte0 byte1, rawSample_toNat byte0 byte1, rawSample_eq_append byte0 byte1⟩

/-- Settles O29: the RawSample as a number gives back `byte1` and `byte0` modulo 64; the angle is the number of counts
times a positive constant, so it keeps their order. -/
theorem rawSampleFourToOne : Obligations.RawSampleFourToOne := by
  unfold Obligations.RawSampleFourToOne
  exact ⟨rawSample_eq_iff, elecDeg_lt_iff, fun _ _ same => elecDeg_injective same⟩

/-- Settles O30: the bounds hold of every 14-bit number, and the angle keeps their order, so its ends are those of 0 and
16383. -/
theorem electricalAngleRange : Obligations.ElectricalAngleRange := by
  unfold Obligations.ElectricalAngleRange
  refine ⟨fun byte0 byte1 => ?range, elecDeg_least, elecDeg_greatest⟩
  case range =>
    exact ⟨raw_toNat_le _, elecDeg_nonneg _, elecDeg_lt_turn _, elecDeg_le_greatest _⟩

end Sys2Proof.Machine

/-! PROOFS. The family 41_wraparound_detector.md: the delta and the detector's step (R72, R73), and the wrap-count
update with both ends of its range (R75, R78). -/

namespace Sys2Proof.Machine

/-! ### The delta and the step -/

/-- The delta in degrees (41_wraparound_detector.md R72). -/
theorem elecDeg_sub_eq_delta (raw prev : Raw) :
    elecDeg raw - elecDeg prev = (delta raw prev : Rat) * 45 / 2048 := by
  rw [elecDeg_eq_counts, elecDeg_eq_counts, delta]
  push_cast
  ring

section

variable {d : Int}

theorem detectorStep_eq_neg_one_iff : detectorStep d = -1 ↔ 8192 < d := by
  rcases detectorStep_cases d with ⟨hs, hd⟩ | ⟨hs, hd⟩ | ⟨hs, hd⟩ <;> rw [hs] <;> omega

theorem detectorStep_eq_one_iff : detectorStep d = 1 ↔ d < -8192 := by
  rcases detectorStep_cases d with ⟨hs, hd⟩ | ⟨hs, hd⟩ | ⟨hs, hd⟩ <;> rw [hs] <;> omega

theorem detectorStep_eq_zero_iff : detectorStep d = 0 ↔ -8192 ≤ d ∧ d ≤ 8192 := by
  rcases detectorStep_cases d with ⟨hs, hd⟩ | ⟨hs, hd⟩ | ⟨hs, hd⟩ <;> rw [hs] <;> omega

end

/-! ### The response of a `SAMPLE` -/

/-- `UNWRAPPED` as a signed number: the wrap count above the 14 bits of the RawSample
(42_electrical_to_mechanical_scaler.md R87). -/
theorem append_toInt {w : Nat} (hw : 0 < w) (wc : BitVec w) (raw : Raw) :
    (wc ++ raw).toInt = unwrappedCounts wc raw := by
  rw [BitVec.toInt_append, if_neg (by simpa using hw.ne'), unwrappedCounts]
  omega

theorem wrapTo_unwrappedCounts {w : Nat} (hw : 0 < w) (wc : BitVec w) (raw : Raw) :
    wrapTo (w + 14) (unwrappedCounts wc raw) = wc ++ raw := by
  rw [wrapTo, ← append_toInt hw, BitVec.ofInt_toInt]

/-- What a legal `SAMPLE` leaves: the registers of `sampleEffect`, and a good response that the scaler computes from the
new registers (43_pipeline_commands.md R106, R107). -/
theorem commandEffect_sample_inv {w : Nat} {byte0 byte1 pp : Byte} {r r' : Regs w} {q : Response w}
    (legal : pp ≠ 0#8) (h : commandEffect (.sample byte0 byte1 pp) r = (r', some q)) :
    r' = (sampleEffect byte0 byte1 pp r).1 ∧
    q = { err := false, cause := 0#2, raw := r'.prev,
          step := wrapTo 2 (detectorStep (delta r'.prev r.prev)),
          unwrapped := wrapTo (w + 14) (unwrappedCounts r'.wc r'.prev),
          mechNum := wrapTo 22 (mechNumerator (unwrappedCounts r'.wc r'.prev) (polePairs pp)) } := by
  have effect : sampleEffect byte0 byte1 pp r = (r', some q) := (sampleOrIllegal_legal legal r).symm.trans h
  obtain ⟨rfl, hq⟩ := Prod.mk.inj effect
  exact ⟨rfl, (Option.some.inj hq).symm⟩

/-! `STEP` is 2-bit two's complement (30_encoding.md R50): 1 is the step up, 3 the step down. -/

theorem stepField_eq_one_iff (step : BitVec 2) : step = 1#2 ↔ step.toInt = 1 :=
  BitVec.toInt_inj.symm

theorem stepField_eq_three_iff (step : BitVec 2) : step = 3#2 ↔ step.toInt = -1 :=
  BitVec.toInt_inj.symm

/-- `wrapTo_wrapSum_ends` on the registers: `OVF` is set at either end of the range and keeps its value elsewhere
(41_wraparound_detector.md R75, R78). -/
theorem sampleEffect_wc_ends {w : Nat} (hw : 2 ≤ w) (byte0 byte1 pp : Byte) (r : Regs w) {s : Int}
    (hs : s = detectorStep (delta (rawSample byte0 byte1) r.prev)) :
    if r.wc.toInt = 2 ^ (w - 1) - 1 ∧ s = 1 then
      (sampleEffect byte0 byte1 pp r).1.wc.toInt = -2 ^ (w - 1) ∧ (sampleEffect byte0 byte1 pp r).1.ovf = true
    else if r.wc.toInt = -2 ^ (w - 1) ∧ s = -1 then
      (sampleEffect byte0 byte1 pp r).1.wc.toInt = 2 ^ (w - 1) - 1 ∧ (sampleEffect byte0 byte1 pp r).1.ovf = true
    else (sampleEffect byte0 byte1 pp r).1.wc.toInt = r.wc.toInt + s ∧
      (sampleEffect byte0 byte1 pp r).1.ovf = r.ovf := by
  have values : s = -1 ∨ s = 0 ∨ s = 1 := hs ▸ detectorStep_values _
  have ends := wrapTo_wrapSum_ends hw r.wc values
  rw [sampleEffect_wc, sampleEffect_ovf, ← hs]
  split_ifs at ends ⊢ with top bottom
  · exact ⟨ends.1, by rw [ends.2, Bool.or_true]⟩
  · exact ⟨ends.1, by rw [ends.2, Bool.or_true]⟩
  · exact ⟨ends.1, by rw [ends.2, Bool.or_false]⟩

/-! ### The statements -/

/-- Settles O31: the range and the degrees of the delta, one equivalence for each value of the step, and the step read
back from its 2-bit field. -/
theorem detectorStepRule : Obligations.DetectorStepRule := by
  unfold Obligations.DetectorStepRule
  intro raw prev
  exact ⟨rfl, delta_bounds raw prev, elecDeg_sub_eq_delta raw prev, detectorStep_eq_neg_one_iff.mpr,
    detectorStep_eq_one_iff.mpr, fun low high => detectorStep_eq_zero_iff.mpr ⟨low, high⟩, detectorStep_field _⟩

/-- Settles O33: the response is computed from the new registers, its `STEP` field reads back the detector's step, and
the ends are those of the wrapped sum. -/
theorem wrapCountUpdateAndOverflow : Obligations.WrapCountUpdateAndOverflow := by
  unfold Obligations.WrapCountUpdateAndOverflow
  intro w byte0 byte1 pp r r' q hw legal h
  obtain ⟨rfl, rfl⟩ := commandEffect_sample_inv legal h
  have step := detectorStep_field (delta (rawSample byte0 byte1) r.prev)
  refine ⟨rfl, rfl, step, ?pattern, wrapTo_unwrappedCounts (by omega) _ _, mechNumerator_field _ legal, ?ends⟩
  case pattern => rw [sampleEffect_wc, sampleEffect_prev, step]; rfl
  case ends =>
    simp only [stepField_eq_one_iff, stepField_eq_three_iff]
    exact sampleEffect_wc_ends hw byte0 byte1 pp r step

end Sys2Proof.Machine

/-! PROOFS. The family 42_electrical_to_mechanical_scaler.md: step 7 as the floor modulus (R89), the unwrapped angle
(R87), the numerator of the mechanical angle (R90, R91, R93), its range (R94), what an overflow does to it (R97), and
its continuity (R98). -/

namespace Sys2Proof.Machine

/-! ### Step 7 of the reference -/

theorem ratMod_eq_mul_fract (q : Rat) {m : Rat} (hm : 0 < m) : ratMod q m = m * Int.fract (q / m) := by
  rw [ratMod, Int.fract, mul_sub, mul_div_cancel₀ q hm.ne']

theorem ratMod_nonneg (q : Rat) {m : Rat} (hm : 0 < m) : 0 ≤ ratMod q m := by
  rw [ratMod_eq_mul_fract q hm]
  exact mul_nonneg hm.le (Int.fract_nonneg _)

theorem ratMod_lt (q : Rat) {m : Rat} (hm : 0 < m) : ratMod q m < m := by
  rw [ratMod_eq_mul_fract q hm]
  exact mul_lt_of_lt_one_right hm (Int.fract_lt_one _)

theorem ratMod_eq_self {q m : Rat} (nonneg : 0 ≤ q) (lt : q < m) : ratMod q m = q := by
  have hm : 0 < m := nonneg.trans_lt lt
  have small : Int.fract (q / m) = q / m := Int.fract_eq_self.mpr ⟨div_nonneg nonneg hm.le, (div_lt_one hm).mpr lt⟩
  rw [ratMod_eq_mul_fract q hm, small, mul_div_cancel₀ q hm.ne']

/-- DOC's three branches are one floor modulus: for a negative angle the ceiling of the negation is the negated floor
(42_electrical_to_mechanical_scaler.md R89). -/
theorem normaliseRef_eq_ratMod (m : Rat) : normaliseRef m = ratMod m 360 := by
  unfold normaliseRef
  split_ifs with negative large
  · rw [neg_div, Int.ceil_neg, ratMod]
    push_cast
    ring
  · rfl
  · exact (ratMod_eq_self (not_lt.mp negative) (not_le.mp large)).symm

/-! ### Remainders of a wrapped count -/

theorem bmod_emod_of_dvd (z : Int) {m n : Nat} (h : m ∣ n) : z.bmod n % (m : Int) = z % (m : Int) := by
  have hz : (m : Int) ∣ n := Int.natCast_dvd_natCast.mpr h
  rw [← Int.emod_emod_of_dvd (z.bmod n) hz, Int.bmod_emod, Int.emod_emod_of_dvd z hz]

/-- The signed and the unsigned reading of a register have the same low bits. -/
theorem toInt_emod_two_pow {w k : Nat} (wc : BitVec w) (h : k ≤ w) :
    wc.toInt % ((2 ^ k : Nat) : Int) = ((wc.toNat % 2 ^ k : Nat) : Int) := by
  rw [BitVec.toInt_eq_toNat_bmod, bmod_emod_of_dvd _ (pow_dvd_pow 2 h), Int.natCast_mod]

/-- Wrapping keeps the remainder modulo every divisor of `2^w` (42_electrical_to_mechanical_scaler.md R97 c). -/
theorem wrapTo_toInt_emod {w p : Nat} (z : Int) (h : p ∣ 2 ^ w) :
    (wrapTo w z).toInt % (p : Int) = z % (p : Int) := by
  rw [wrapTo, BitVec.toInt_ofInt, bmod_emod_of_dvd z h]

/-- At either end of the range the wrapped count is off by exactly `2^w` (41_wraparound_detector.md R78). -/
theorem abs_sub_wrapTo_ends {w : Nat} (hw : 2 ≤ w) {z : Int} (hz : z = 2 ^ (w - 1) ∨ z = -2 ^ (w - 1) - 1) :
    |z - (wrapTo w z).toInt| = 2 ^ w := by
  have double : (2 : Int) ^ w = 2 * 2 ^ (w - 1) := (mul_pow_sub_one (by omega) 2).symm
  have full_pos : (0 : Int) < 2 ^ w := by positivity
  rcases hz with rfl | rfl
  · have off : (2 : Int) ^ (w - 1) - -2 ^ (w - 1) = 2 ^ w := by omega
    rw [wrapTo_past_top hw, off, abs_of_pos full_pos]
  · have off : -(2 : Int) ^ (w - 1) - 1 - (2 ^ (w - 1) - 1) = -2 ^ w := by omega
    rw [wrapTo_past_bottom hw, off, abs_neg, abs_of_pos full_pos]

/-- Only a divisor of `2^w` has the same remainder on both sides of an overflow
(42_electrical_to_mechanical_scaler.md R97 c). -/
theorem dvd_of_wrapTo_ends_emod_eq {w p : Nat} (hw : 2 ≤ w) {z : Int} (hz : z = 2 ^ (w - 1) ∨ z = -2 ^ (w - 1) - 1)
    (same : (wrapTo w z).toInt % (p : Int) = z % (p : Int)) : p ∣ 2 ^ w := by
  have dvd : (p : Int) ∣ z - (wrapTo w z).toInt := Int.ModEq.dvd same
  rw [← dvd_abs, abs_sub_wrapTo_ends hw hz] at dvd
  exact_mod_cast dvd

theorem wrapTo_toInt_ne {w : Nat} {z : Int} (overflow : wcOverflows w z = true) : (wrapTo w z).toInt ≠ z := by
  intro same
  have fits := wcOverflows_toInt (wrapTo w z)
  rw [same, overflow] at fits
  contradiction

/-! ### The unwrapped angle -/

theorem unwrappedCounts_bounds {w : Nat} (hw : 0 < w) (wc : BitVec w) (raw : Raw) :
    -2 ^ (w + 13) ≤ unwrappedCounts wc raw ∧ unwrappedCounts wc raw ≤ 2 ^ (w + 13) - 1 := by
  rw [← append_toInt hw]
  exact toInt_bounds (wc ++ raw)

/-- The unwrapped angle in degrees is DOC's step 5 (42_electrical_to_mechanical_scaler.md R87). -/
theorem unwrappedCounts_degrees {w : Nat} (wc : BitVec w) (raw : Raw) :
    (unwrappedCounts wc raw : Rat) * 45 / 2048 = elecDeg raw + (wc.toInt : Rat) * 360 := by
  rw [elecDeg_eq_counts, unwrappedCounts]
  push_cast
  ring

/-- The RawSample 16383 at wrap count -1 is one count below 0 (42_electrical_to_mechanical_scaler.md R94). -/
theorem unwrappedCounts_neg_one {w : Nat} (hw : 0 < w) :
    unwrappedCounts (BitVec.ofInt w (-1)) 16383#14 = -1 := by
  have half_pos : (0 : Int) < 2 ^ (w - 1) := by positivity
  have fits : wcOverflows w (-1) = false := by
    simp only [wcOverflows, decide_eq_false_iff_not]
    omega
  have wc : (BitVec.ofInt w (-1)).toInt = -1 := wrapTo_toInt hw fits
  rw [unwrappedCounts, wc]
  rfl

/-! ### The numerator -/

/-- A byte that is no pole-pair count of 0 is positive as a number (30_encoding.md R44). -/
theorem pp_toNat_pos {pp : Byte} (legal : pp ≠ 0#8) : 0 < pp.toNat :=
  (polePairs_bounds legal).1

section

variable {p : Nat}

/-- The form without a wide modulus, for every integer as wrap count (42_electrical_to_mechanical_scaler.md R91). -/
theorem mechNumerator_counts (a : Int) (raw : Raw) (hp : 0 < p) :
    mechNumerator (a * 16384 + (raw.toNat : Int)) p = a % (p : Int) * 16384 + (raw.toNat : Int) := by
  have hp' : (0 : Int) < p := by exact_mod_cast hp
  have split : a * 16384 + (raw.toNat : Int) =
      a % (p : Int) * 16384 + (raw.toNat : Int) + 16384 * (p : Int) * (a / (p : Int)) := by
    linear_combination -16384 * Int.emod_add_mul_ediv a p
  have rem_nonneg : 0 ≤ a % (p : Int) := Int.emod_nonneg a hp'.ne'
  have rem_lt : a % (p : Int) < p := Int.emod_lt_of_pos a hp'
  have := raw_toNat_le raw
  rw [mechNumerator, floorMod, split, Int.add_mul_emod_self_left]
  exact Int.emod_eq_of_lt (by omega) (by omega)

/-- The output depends on the wrap count through its remainder modulo `P`, and on all of that
(42_electrical_to_mechanical_scaler.md R97). -/
theorem mechNumerator_counts_eq_iff {a b : Int} (raw : Raw) (hp : 0 < p) :
    mechNumerator (a * 16384 + (raw.toNat : Int)) p = mechNumerator (b * 16384 + (raw.toNat : Int)) p ↔
      a % (p : Int) = b % (p : Int) := by
  rw [mechNumerator_counts a raw hp, mechNumerator_counts b raw hp]
  omega

/-- `n` is the low bits of the concatenation `{wc_new, raw}` (42_electrical_to_mechanical_scaler.md R91). -/
theorem append_toNat_mod {w : Nat} (wc : BitVec w) (raw : Raw) (k : Nat) :
    (wc ++ raw).toNat % 2 ^ (14 + k) = wc.toNat % 2 ^ k * 16384 + raw.toNat := by
  have concat : (wc ++ raw).toNat = wc.toNat * 2 ^ 14 + raw.toNat := by
    rw [BitVec.toNat_append, ← Nat.shiftLeft_add_eq_or_of_lt raw.isLt, Nat.shiftLeft_eq]
  have low : (wc ++ raw).toNat % 2 ^ 14 = raw.toNat := by have := raw.isLt; omega
  have high : (wc ++ raw).toNat / 2 ^ 14 = wc.toNat := by have := raw.isLt; omega
  rw [pow_add, Nat.mod_mul, low, high]
  ring

/-- The remainder as a natural number, which is what the response holds. -/
theorem mechNumerator_toNat (u : Int) (hp : 0 < p) : ((mechNumerator u p).toNat : Int) = mechNumerator u p :=
  Int.toNat_of_nonneg (mechNumerator_bounds u hp).1

theorem mechNumerator_toNat_lt (u : Int) (hp : 0 < p) : (mechNumerator u p).toNat < 16384 * p := by
  have := mechNumerator_toNat u hp
  have := (mechNumerator_bounds u hp).2
  omega

theorem mechNumerator_neg_one (hp : 0 < p) : mechNumerator (-1) p = ((16384 * p - 1 : Nat) : Int) := by
  have turn : (-1 : Int) = ((16384 * p - 1 : Nat) : Int) + 16384 * (p : Int) * (-1) := by omega
  rw [mechNumerator, floorMod, turn, Int.add_mul_emod_self_left]
  exact Int.emod_eq_of_lt (by omega) (by omega)

/-! ### The mechanical angle in degrees -/

/-- The angle of the numerator is the angle `u / P` less its whole turns (42_electrical_to_mechanical_scaler.md R88,
R90). -/
theorem mechDeg_mechNumerator (u : Int) (hp : 0 < p) :
    mechDeg (mechNumerator u p).toNat p =
      (u : Rat) * 45 / 2048 / p - 360 * ((u / ((16384 * p : Nat) : Int) : Int) : Rat) := by
  have numerator : (((mechNumerator u p).toNat : Int) : Rat) =
      u - 16384 * p * ((u / ((16384 * p : Nat) : Int) : Int) : Rat) := by
    rw [mechNumerator_toNat u hp, mechNumerator, floorMod, Int.emod_def]
    push_cast
    ring
  have hp' : (p : Rat) ≠ 0 := by exact_mod_cast hp.ne'
  rw [Int.cast_natCast] at numerator
  rw [mechDeg, numerator]
  field_simp
  ring

/-- The floor modulus of the angle in degrees is the floor modulus of the counts: 16384 counts are a turn
(42_electrical_to_mechanical_scaler.md R90). -/
theorem ratMod_turn_eq_mechDeg (u : Int) (hp : 0 < p) :
    ratMod ((u : Rat) * 45 / 2048 / p) 360 = mechDeg (mechNumerator u p).toNat p := by
  have turns : (u : Rat) * 45 / 2048 / p / 360 = (u : Rat) / ((16384 * p : Nat) : Rat) := by
    push_cast
    ring
  rw [ratMod, turns, Rat.floor_intCast_div_natCast, mechDeg_mechNumerator u hp]

/-- Two positions have angles that differ by their distance over `P`, up to whole turns
(42_electrical_to_mechanical_scaler.md R97 b, R98). -/
theorem mechDeg_sub_mechDeg (u v : Int) (hp : 0 < p) :
    ∃ k : Int, mechDeg (mechNumerator v p).toNat p - mechDeg (mechNumerator u p).toNat p =
      ((v - u : Int) : Rat) / p * 360 / 16384 + 360 * (k : Rat) := by
  refine ⟨u / ((16384 * p : Nat) : Int) - v / ((16384 * p : Nat) : Int), ?_⟩
  rw [mechDeg_mechNumerator u hp, mechDeg_mechNumerator v hp]
  push_cast
  ring

theorem mechDeg_nonneg (n p : Nat) : 0 ≤ mechDeg n p := by
  unfold mechDeg; positivity

theorem mechDeg_eq_zero_iff {n : Nat} (hp : 0 < p) : mechDeg n p = 0 ↔ n = 0 := by
  have hp' : (p : Rat) ≠ 0 := by exact_mod_cast hp.ne'
  simp [mechDeg, hp']

theorem mechDeg_mono {n m : Nat} (h : n ≤ m) (p : Nat) : mechDeg n p ≤ mechDeg m p := by
  unfold mechDeg; gcongr

theorem mechDeg_greatest (hp : 0 < p) : mechDeg (16384 * p - 1) p = 360 - 45 / (2048 * (p : Rat)) := by
  have hp' : (p : Rat) ≠ 0 := by exact_mod_cast hp.ne'
  rw [mechDeg, Nat.cast_sub (by omega)]
  push_cast
  field_simp
  ring

theorem mechDeg_le_greatest {n : Nat} (hp : 0 < p) (hn : n < 16384 * p) :
    mechDeg n p ≤ 360 - 45 / (2048 * (p : Rat)) :=
  (mechDeg_mono (Nat.le_sub_one_of_lt hn) p).trans_eq (mechDeg_greatest hp)

theorem mechDeg_lt_turn {n : Nat} (hp : 0 < p) (hn : n < 16384 * p) : mechDeg n p < 360 := by
  have hp' : (0 : Rat) < p := by exact_mod_cast hp
  have count_pos : 0 < 45 / (2048 * (p : Rat)) := by positivity
  exact (mechDeg_le_greatest hp hn).trans_lt (by linarith)

/-- DOC's steps 5 to 7 on a wrap count and a RawSample, in counts (42_electrical_to_mechanical_scaler.md R90). -/
theorem scaleRef_elecDeg {w : Nat} (wc : BitVec w) (raw : Raw) (hp : 0 < p) :
    scaleRef (elecDeg raw) wc.toInt p =
      ((unwrappedCounts wc raw : Rat) * 45 / 2048, mechDeg (mechNumerator (unwrappedCounts wc raw) p).toNat p) := by
  rw [scaleRef, ← unwrappedCounts_degrees, normaliseRef_eq_ratMod, ratMod_turn_eq_mechDeg _ hp]

end

/-! ### The position across a `SAMPLE` -/

/-- The step brings every delta back to at most half a turn (41_wraparound_detector.md R79). -/
theorem abs_delta_add_step_le (raw prev : Raw) : |delta raw prev + detectorStep (delta raw prev) * 16384| ≤ 8192 := by
  have ⟨low, high⟩ := delta_bounds raw prev
  rw [abs_le]
  rcases detectorStep_cases (delta raw prev) with ⟨hs, _⟩ | ⟨hs, _⟩ | ⟨hs, _⟩ <;> rw [hs] <;> omega

/-- Away from the overflow the position moves by the delta and the whole turn of the step (41_wraparound_detector.md
R79). -/
theorem sampleEffect_position_sub {w : Nat} (hw : 0 < w) (byte0 byte1 pp : Byte) (r : Regs w)
    (fits : wcOverflows w (r.wc.toInt + detectorStep (delta (rawSample byte0 byte1) r.prev)) = false) :
    (sampleEffect byte0 byte1 pp r).1.position - r.position =
      delta (rawSample byte0 byte1) r.prev + detectorStep (delta (rawSample byte0 byte1) r.prev) * 16384 := by
  have moved := wrapTo_toInt hw fits
  rw [Regs.position, Regs.position, unwrappedCounts, unwrappedCounts, sampleEffect_wc, sampleEffect_prev, wrapSum,
    moved, delta]
  ring

/-- `MECH_NUM` of a legal `SAMPLE` is the numerator of the position it leaves (43_pipeline_commands.md R106). -/
theorem sampleRsp_mechNum {w : Nat} {byte0 byte1 pp : Byte} {r r' : Regs w} {q : Response w} (legal : pp ≠ 0#8)
    (h : commandEffect (.sample byte0 byte1 pp) r = (r', some q)) :
    q.mechNum.toNat = (mechNumerator r'.position pp.toNat).toNat := by
  obtain ⟨_, rfl⟩ := commandEffect_sample_inv legal h
  have field := mechNumerator_field r'.position legal
  exact (Int.toNat_natCast _).symm.trans (congrArg Int.toNat field)

/-- A move of at most half an electrical turn is at most `180 / P` degrees (42_electrical_to_mechanical_scaler.md
R98). -/
theorem abs_turn_le {d : Int} (hd : |d| ≤ 8192) (p : Nat) :
    |(d : Rat) / (p : Rat) * 360 / 16384| ≤ 180 / (p : Rat) := by
  have bound : |(d : Rat)| ≤ 8192 := by exact_mod_cast hd
  have scaled : |(d : Rat) / (p : Rat) * 360 / 16384| = |(d : Rat)| * 360 / 16384 / (p : Rat) := by
    rw [abs_div, abs_mul, abs_div, Nat.abs_cast, abs_of_pos (by norm_num : (0 : Rat) < 360),
      abs_of_pos (by norm_num : (0 : Rat) < 16384)]
    ring
  rw [scaled]
  gcongr
  linarith

/-! ### The statements -/

/-- Settles O38: the three branches are the floor modulus, which is in range and a whole number of turns away. -/
theorem normalisationIsFloorModulus : Obligations.NormalisationIsFloorModulus := by
  unfold Obligations.NormalisationIsFloorModulus
  refine ⟨fun m => ?floorModulus, ?minusTurn⟩
  case floorModulus =>
    have turn_pos : (0 : Rat) < 360 := by norm_num
    rw [normaliseRef_eq_ratMod]
    refine ⟨rfl, ratMod_nonneg m turn_pos, ratMod_lt m turn_pos, -⌊m / 360⌋, ?_⟩
    rw [ratMod]
    push_cast
    ring
  case minusTurn =>
    have whole : (-360 : Rat) / 360 = ((-1 : Int) : Rat) := by norm_num
    rw [normaliseRef_eq_ratMod, ratMod, whole, Int.floor_intCast]
    norm_num

/-- Settles O39: the bounds are those of the concatenation read as a signed number. -/
theorem unwrappedIsConcatenation : Obligations.UnwrappedIsConcatenation := by
  unfold Obligations.UnwrappedIsConcatenation
  intro w wc raw hw
  have hw' : 0 < w := by omega
  have ⟨low, high⟩ := unwrappedCounts_bounds hw' wc raw
  exact ⟨rfl, wrapTo_unwrappedCounts hw' wc raw, low, high, unwrappedCounts_degrees wc raw⟩

/-- Settles O40: the narrow form, and for a power of two the remainder read off the low bits of the wrap count. -/
theorem mechNumNarrowForm : Obligations.MechNumNarrowForm := by
  unfold Obligations.MechNumNarrowForm
  intro w wc raw pp _ legal
  have narrow : mechNumerator (unwrappedCounts wc raw) (polePairs pp) =
      wc.toInt % (pp.toNat : Int) * 16384 + (raw.toNat : Int) := mechNumerator_counts wc.toInt raw (pp_toNat_pos legal)
  refine ⟨narrow, fun k hk power => ?_⟩
  have lowBits : mechNumerator (unwrappedCounts wc raw) (polePairs pp) =
      ((wc.toNat % 2 ^ k * 16384 + raw.toNat : Nat) : Int) := by
    rw [narrow, power, toInt_emod_two_pow wc hk]
    push_cast
    rfl
  exact ⟨lowBits, by rw [append_toNat_mod, lowBits]⟩

/-- Settles O41: the numerator is a remainder below `16384 * P`, the angle grows with it, and the largest remainder is
that of the position -1. -/
theorem mechanicalAngleRange : Obligations.MechanicalAngleRange := by
  unfold Obligations.MechanicalAngleRange
  refine ⟨fun w wc raw pp n legal hn => ?range, fun w pp hw legal => ⟨?numerator, mechDeg_greatest (pp_toNat_pos legal)⟩⟩
  case range =>
    have ⟨hp, hp255⟩ : 0 < pp.toNat ∧ pp.toNat ≤ 255 := polePairs_bounds legal
    have field := mechNumerator_field (unwrappedCounts wc raw) legal
    have below : n < 16384 * pp.toNat := by
      have : mechNumerator (unwrappedCounts wc raw) (polePairs pp) < 16384 * (pp.toNat : Int) :=
        (mechNumerator_bounds _ hp).2
      omega
    exact ⟨by omega, below, by omega, mechDeg_nonneg n _, mechDeg_lt_turn hp below, mechDeg_eq_zero_iff hp,
      mechDeg_le_greatest hp below⟩
  case numerator =>
    rw [unwrappedCounts_neg_one (by omega)]
    exact mechNumerator_neg_one (pp_toNat_pos legal)

/-- Settles O42: the numerator as a natural number is the witness. -/
theorem scalerMatchesReference : Obligations.ScalerMatchesReference := by
  unfold Obligations.ScalerMatchesReference
  intro w wc raw pp legal
  have hp := pp_toNat_pos legal
  have value := mechNumerator_toNat (unwrappedCounts wc raw) hp
  exact ⟨_, value, value.symm, mechNumerator_toNat_lt _ hp, scaleRef_elecDeg wc raw hp⟩

/-- Settles O43: equal numerators are equal remainders modulo `P`, which wrapping keeps exactly for the divisors of
`2^WC_W`; one wrap is 16384 counts. -/
theorem outputDependsOnWrapCountModP : Obligations.OutputDependsOnWrapCountModP := by
  unfold Obligations.OutputDependsOnWrapCountModP
  intro w raw pp hw legal
  have hp := pp_toNat_pos legal
  refine ⟨fun wc wc' same => (mechNumerator_counts_eq_iff raw hp).mpr same, fun wc wc' turn => ?revolution,
    fun wc wc' wrap => ?oneWrap, fun z dvd => (mechNumerator_counts_eq_iff raw hp).mpr (wrapTo_toInt_emod z dvd),
    fun z ends notDvd same => ?disturbed, fun z overflow same => ?unwrapped⟩
  case revolution =>
    refine (mechNumerator_counts_eq_iff raw hp).mpr ?_
    rw [turn, Int.add_emod_right]
  case oneWrap =>
    have counts : unwrappedCounts wc' raw - unwrappedCounts wc raw = 16384 := by
      rw [unwrappedCounts, unwrappedCounts, wrap]
      ring
    obtain ⟨k, hk⟩ := mechDeg_sub_mechDeg (unwrappedCounts wc raw) (unwrappedCounts wc' raw) hp
    refine ⟨k, ?_⟩
    rw [counts] at hk
    push_cast at hk
    rw [polePairs]
    linear_combination hk
  case disturbed =>
    exact notDvd (dvd_of_wrapTo_ends_emod_eq hw ends ((mechNumerator_counts_eq_iff raw hp).mp same))
  case unwrapped =>
    rw [unwrappedCounts] at same
    exact wrapTo_toInt_ne overflow (by omega)

/-- Settles O45: both responses hold the numerator of a position, and the second `SAMPLE` moves the position by at most
half an electrical turn. -/
theorem mechanicalAngleContinuity : Obligations.MechanicalAngleContinuity := by
  unfold Obligations.MechanicalAngleContinuity
  intro w a0 a1 b0 b1 pp r r1 r2 q1 q2 hw legal first second fits
  have moved : |r2.position - r1.position| ≤ 8192 := by
    obtain ⟨rfl, rfl⟩ := commandEffect_sample_inv legal second
    rw [detectorStep_field, sampleEffect_prev] at fits
    rw [sampleEffect_position_sub (by omega) b0 b1 pp r1 fits]
    exact abs_delta_add_step_le _ _
  obtain ⟨k, hk⟩ := mechDeg_sub_mechDeg r1.position r2.position (pp_toNat_pos legal)
  rw [← sampleRsp_mechNum legal first, ← sampleRsp_mechNum legal second] at hk
  exact ⟨k, _, rfl, moved, abs_turn_le moved pp.toNat, hk⟩

end Sys2Proof.Machine

/-! PROOFS. The family 43_pipeline_commands.md: a `SAMPLE` word with its whole effect (R106), `SAMPLE` as the image of
DOC's seven steps (R108), and the same sample presented again (R116). -/

namespace Sys2Proof.Machine

/-! ### The detector in degrees -/

/-- Half a turn is 8192 counts, from below and from above (41_wraparound_detector.md R73, R74). -/
theorem half_turn_lt_degrees_iff (d : Int) : (d : Rat) * 45 / 2048 > 180 ↔ d > 8192 := by
  have counts : (180 : Rat) = (8192 : Int) * 45 / 2048 := by norm_num
  rw [counts, gt_iff_lt, div_lt_div_iff_of_pos_right (by norm_num), mul_lt_mul_iff_of_pos_right (by norm_num),
    Int.cast_lt]

theorem degrees_lt_neg_half_turn_iff (d : Int) : (d : Rat) * 45 / 2048 < -180 ↔ d < -8192 := by
  have counts : (-180 : Rat) = (-8192 : Int) * 45 / 2048 := by norm_num
  rw [counts, div_lt_div_iff_of_pos_right (by norm_num), mul_lt_mul_iff_of_pos_right (by norm_num), Int.cast_lt]

/-- DOC's steps 1 to 4 on the angles of two RawSamples are the detector's step on their counts
(41_wraparound_detector.md R74). -/
theorem detectRef_elecDeg (raw prev : Raw) (count : Int) :
    detectRef (elecDeg raw) (elecDeg prev) count =
      (detectorStep (delta raw prev), count + detectorStep (delta raw prev), elecDeg raw) := by
  simp only [detectRef, detectorStep, elecDeg_sub_eq_delta, half_turn_lt_degrees_iff, degrees_lt_neg_half_turn_iff]

/-- DOC's seven steps from the registers of width `w` to the count `wc`, in counts (43_pipeline_commands.md R108). -/
theorem unwrapRef_elecDeg {w p : Nat} {count : Int} {wc : BitVec w} {raw prev : Raw} (hp : 0 < p)
    (moved : wc.toInt = count + detectorStep (delta raw prev)) :
    unwrapRef (elecDeg raw) (elecDeg prev, count) p =
      ((elecDeg raw, wc.toInt), (unwrappedCounts wc raw : Rat) * 45 / 2048,
        mechDeg (mechNumerator (unwrappedCounts wc raw) p).toNat p) := by
  simp only [unwrapRef, detectRef_elecDeg, ← moved, scaleRef_elecDeg wc raw hp]

/-! ### The response of a `SAMPLE`, from the registers it leaves -/

section

variable {w : Nat} {byte0 byte1 pp : Byte}

/-- The response of a `SAMPLE` that leaves the registers `r` with the step `s` (43_pipeline_commands.md R106). -/
def sampleResponse (pp : Byte) (s : Int) (r : Regs w) : Response w :=
  { err := false, cause := 0#2, raw := r.prev, step := wrapTo 2 s, unwrapped := wrapTo (w + 14) r.position,
    mechNum := wrapTo 22 (mechNumerator r.position (polePairs pp)) }

/-- The scaler sees nothing but the new registers (43_pipeline_commands.md R107). -/
theorem sampleEffect_rsp (byte0 byte1 pp : Byte) (r : Regs w) :
    (sampleEffect byte0 byte1 pp r).2 =
      some (sampleResponse pp (detectorStep (delta (rawSample byte0 byte1) r.prev))
        (sampleEffect byte0 byte1 pp r).1) :=
  rfl

/-- `UNWRAPPED` always fits its field (42_electrical_to_mechanical_scaler.md R87). -/
theorem position_field (hw : 0 < w) (r : Regs w) : (wrapTo (w + 14) r.position).toInt = r.position := by
  rw [Regs.position, wrapTo_unwrappedCounts hw, append_toInt hw]

/-- `UNWRAPPED` of a legal `SAMPLE` is the position it leaves (43_pipeline_commands.md R106). -/
theorem sampleRsp_unwrapped {r r' : Regs w} {q : Response w} (hw : 0 < w) (legal : pp ≠ 0#8)
    (h : commandEffect (.sample byte0 byte1 pp) r = (r', some q)) : q.unwrapped.toInt = r'.position := by
  obtain ⟨_, rfl⟩ := commandEffect_sample_inv legal h
  exact position_field hw r'

/-- A legal `SAMPLE` retires with its effect, at every width (43_pipeline_commands.md R106). -/
theorem exec_sample (legal : pp ≠ 0#8) (b : Block w) :
    exec (.sample byte0 byte1 pp) ⟨w, b⟩ = .next ⟨w, b.retire (sampleEffect byte0 byte1 pp b.regs)⟩ := by
  rw [exec_eq_retire, State.retire_mk, commandEffect, sampleOrIllegal_legal legal]

/-! ### The same sample again -/

theorem Regs.eq_of_fields {r r' : Regs w} (prev : r.prev = r'.prev) (wc : r.wc = r'.wc) (ovf : r.ovf = r'.ovf)
    (ill : r.ill = r'.ill) : r = r' := by
  cases r; cases r'
  exact (Regs.mk.injEq ..).mpr ⟨prev, wc, ovf, ill⟩

/-- No delta, no step (43_pipeline_commands.md R116). -/
@[simp] theorem detectorStep_delta_self (raw : Raw) : detectorStep (delta raw raw) = 0 := by
  rw [delta, sub_self]; rfl

/-- The RawSample that `PREV` holds already leaves every register as it is: adding a step of 0 never overflows
(43_pipeline_commands.md R116). -/
theorem sampleEffect_regs_of_prev {r : Regs w} (same : rawSample byte0 byte1 = r.prev) :
    (sampleEffect byte0 byte1 pp r).1 = r := by
  have still : wrapSum r.wc (detectorStep (delta (rawSample byte0 byte1) r.prev)) = r.wc.toInt := by
    rw [same, detectorStep_delta_self, wrapSum, add_zero]
  have wc : (sampleEffect byte0 byte1 pp r).1.wc = r.wc := by
    rw [sampleEffect_wc, still, wrapTo, BitVec.ofInt_toInt]
  have ovf : (sampleEffect byte0 byte1 pp r).1.ovf = r.ovf := by
    rw [sampleEffect_ovf, still, wcOverflows_toInt, Bool.or_false]
  exact Regs.eq_of_fields same wc ovf rfl

/-- Its whole effect: the registers as they are, and their response with `STEP = 0`. -/
theorem sampleEffect_of_prev {r : Regs w} (same : rawSample byte0 byte1 = r.prev) :
    sampleEffect byte0 byte1 pp r = (r, some (sampleResponse pp 0 r)) := by
  refine Prod.ext (sampleEffect_regs_of_prev same) ?_
  rw [sampleEffect_rsp, sampleEffect_regs_of_prev same, same, detectorStep_delta_self]

end

/-! ### The operands of a `SAMPLE` word -/

/-- The RawSample of a word as a number (30_encoding.md R44, 40_angle_decoder.md R61). -/
theorem rawSample_fields_toNat (cmd : Word) :
    (rawSample (byte0Field cmd) (byte1Field cmd)).toNat = cmd.toNat / 256 % 64 * 256 + cmd.toNat % 256 := by
  rw [rawSample_toNat, byte0Field_toNat, byte1Field_toNat]
  omega

/-- The two masks of the row of `SAMPLE` (30_encoding.md R47) give its fields as operands, `PP` a legal one. -/
theorem decode_of_sampleMasks {cmd : Word} (row : cmd &&& 0xFF000000#32 = 0x40000000#32)
    (legal : cmd &&& 0x00FF0000#32 ≠ 0#32) :
    decode cmd = .sample (byte0Field cmd) (byte1Field cmd) (ppField cmd) ∧ ppField cmd ≠ 0#8 := by
  obtain ⟨low, high⟩ := (sampleMasks_iff cmd).mp ⟨row, legal⟩
  refine ⟨decode_eq_sample_fields low high, ?_⟩
  rwa [Ne, ppField_eq_zero_iff, ← ppMask_eq_zero_iff]

/-! ### The statements -/

/-- Settles O46: without an overflow the wrap count moves by the step as an integer, as DOC's does, and both fields of
the response are read off the new position. -/
theorem sampleRefinesReference : Obligations.SampleRefinesReference := by
  unfold Obligations.SampleRefinesReference
  intro w byte0 byte1 pp r r' q hw legal h fits
  have unwrapped : q.unwrapped.toInt = r'.position := sampleRsp_unwrapped (by omega) legal h
  have mechNum : q.mechNum.toNat = (mechNumerator r'.position pp.toNat).toNat := sampleRsp_mechNum legal h
  rw [unwrapped, mechNum]
  obtain ⟨rfl, rfl⟩ := commandEffect_sample_inv legal h
  rw [detectorStep_field, sampleEffect_prev] at fits
  exact unwrapRef_elecDeg (pp_toNat_pos legal) (wrapTo_toInt (by omega) fits)

/-- Settles O48: the first `SAMPLE` leaves its RawSample in `PREV`, so the second one is the first clause's case. -/
theorem repeatedSampleKeepsWrapCount : Obligations.RepeatedSampleKeepsWrapCount := by
  unfold Obligations.RepeatedSampleKeepsWrapCount
  intro w r byte0 byte1 pp _ legal
  have effect (regs : Regs w) : commandEffect (.sample byte0 byte1 pp) regs = sampleEffect byte0 byte1 pp regs :=
    sampleOrIllegal_legal legal regs
  simp only [effect]
  refine ⟨fun same => ?present, ?twice⟩
  case present =>
    rw [sampleEffect_of_prev same]
    exact ⟨rfl, _, rfl, rfl⟩
  case twice =>
    rw [sampleEffect_of_prev (sampleEffect_prev byte0 byte1 pp r).symm, sampleEffect_rsp]
    exact ⟨rfl, rfl⟩

/-- Settles O11: the word is read as a `SAMPLE` of its fields, which retires with the registers of `sampleEffect` and
their response; every field of the response reads back the integer it was made from. -/
theorem sampleWordCompletes : Obligations.SampleWordCompletes := by
  unfold Obligations.SampleWordCompletes
  intro cmd w b hw row nonzero
  obtain ⟨decoded, legal⟩ := decode_of_sampleMasks row nonzero
  rw [decoded]
  refine ⟨_, _, (rawSample (byte0Field cmd) (byte1Field cmd)).toNat, _, _, _, _, polePairs (ppField cmd), ?raw,
    ?polePairs, rfl, rfl, rfl, rfl, exec_sample legal b, rfl, rfl, rfl, rfl, sampleEffect_rsp .., rfl, rfl, rfl,
    detectorStep_field _, position_field (by omega) _, mechNumerator_field _ legal,
    Block.retire_inFlight .., Block.retire_rst .., Block.retire_everReset ..⟩
  case raw => exact congrArg Nat.cast (rawSample_fields_toNat cmd)
  case polePairs => exact congrArg Nat.cast (ppField_toNat cmd)

end Sys2Proof.Machine

/-! PROOFS. The family 60_exceptions.md: what taking `IllegalCommand` changes on the whole machine (R128). -/

namespace Sys2Proof.Machine

/-! ### Taking the exception -/

/-- A command whose effect is `raise IllegalCommand(c)` completes: it sets `ILL`, answers with the error response of `c`,
and leaves the rest of the block as it is (60_exceptions.md R128). -/
theorem exec_eq_of_effect_raiseIllegal {w : Nat} {b : Block w} {i : Instr} {c : Cause}
    (raises : commandEffect i b.regs = raiseIllegal c b.regs) :
    exec i ⟨w, b⟩ = .next ⟨w, { b with
      regs := { b.regs with ill := true },
      rsp := some ⟨true, causeCode c, 0#14, 0#2, 0#(w + 14), 0#22⟩ }⟩ := by
  rw [exec_eq_retire, raises]
  rfl

/-! ### The statement -/

/-- Settles O12: each of the three commands raises the exception with its own cause, so all three are one lemma. -/
theorem illegalCommandsComplete : Obligations.IllegalCommandsComplete := by
  unfold Obligations.IllegalCommandsComplete
  intro w b
  have reservedOp : commandEffect .illegalReservedOp b.regs = raiseIllegal .reservedOp b.regs := rfl
  have reservedBits : commandEffect .illegalReservedBits b.regs = raiseIllegal .reservedBits b.regs := rfl
  have zeroPolePairs : commandEffect .illegalZeroPolePairs b.regs = raiseIllegal .zeroPolePairs b.regs := rfl
  exact ⟨exec_eq_of_effect_raiseIllegal reservedOp, exec_eq_of_effect_raiseIllegal reservedBits,
    exec_eq_of_effect_raiseIllegal zeroPolePairs⟩

end Sys2Proof.Machine

/-! PROOFS. The family 70_reset_and_hazards.md: the cycle with `rst = 1` and the first one after it (R145). -/

namespace Sys2Proof.Machine

section

variable {w : Nat} {b : Block w}

/-! ### The ports under reset -/

/-- `cmd_ready` is the pin `rst` inverted (30_encoding.md R41). -/
@[simp] theorem Block.outPorts_cmdReady (b : Block w) : b.outPorts.cmdReady = !b.rst := rfl

theorem Block.rspValid_of_rst (h : b.rst = true) : b.outPorts.rspValid = false := by
  rw [Block.outPorts_rspValid, Block.visibleRsp_of_rst h, Option.isSome_none]

/-! ### The command port, by the level of `rst` -/

/-- With `rst = 1` nothing presented is accepted, whatever `cmd_valid` is (70_reset_and_hazards.md R145). -/
theorem Block.accept_of_rst (h : b.rst = true) (valid : Bool) (cmd : Word) : b.accept valid cmd = b := by
  have notReady : b.cmdReady = false := by rw [Block.cmdReady, h, Bool.not_true]
  rw [Block.accept, notReady, Bool.and_false, if_neg Bool.false_ne_true]

/-- The first cycle after a reset cycle accepts its word, and that word is then the only one in flight
(70_reset_and_hazards.md R145, R146). -/
theorem Block.accept_after_resetCycle_inFlight (b : Block w) (cmd : Word) :
    ((b.resetCycle.setRst false).accept true cmd).inFlight = [cmd] := by
  rw [Block.accept_inFlight, Block.setRst_rst, Block.setRst_inFlight, Block.resetCycle_inFlight]
  rfl

end

/-! ### The statement -/

/-- Settles O19: the cycle's own clauses are read off the high pin, and the state it leaves is `resetCycle`. -/
theorem resetCycle : Obligations.ResetCycle := by
  unfold Obligations.ResetCycle
  intro w b high
  have notReady : b.outPorts.cmdReady = false := by rw [Block.outPorts_cmdReady, high, Bool.not_true]
  have stays : b.resetCycle.rst = true := (Block.resetCycle_rst b).trans high
  exact ⟨notReady, Block.rspValid_of_rst high, Block.accept_of_rst high,
    b.resetCycle, step_of_rst high, Block.resetCycle_regs b, Block.resetCycle_rsp b, Block.resetCycle_inFlight b,
    stays, Block.accept_after_resetCycle_inFlight b⟩

end Sys2Proof.Machine

/-! PROOFS. Words and their commands: decoding and encoding are inverse to each other (30_encoding.md sections 2 and 3),
the assembler's `SAMPLE` line (R55), and what a word of each row does to the registers, the layer that the proofs about
steps and runs use. -/

namespace Sys2Proof

/-! ### Decoding an encoded command, and the other way round -/

section

variable {cmd : Word}

/-- The number of a `SAMPLE` word (30_encoding.md R55) is read back as its three operands. -/
theorem decode_of_sample_number {b0 b1 pp : Nat} (h0 : b0 ≤ 255) (h1 : b1 ≤ 255) (hpp : 1 ≤ pp) (hpp' : pp ≤ 255)
    (number : cmd.toNat = 0x40000000 + pp * 65536 + b0 * 256 + b1) :
    decode cmd = .sample (BitVec.ofNat 8 b0) (BitVec.ofNat 8 b1) (BitVec.ofNat 8 pp) := by
  have byte0 : byte0Field cmd = BitVec.ofNat 8 b0 :=
    BitVec.eq_of_toNat_eq (by rw [byte0Field_toNat, BitVec.toNat_ofNat]; omega)
  have byte1 : byte1Field cmd = BitVec.ofNat 8 b1 :=
    BitVec.eq_of_toNat_eq (by rw [byte1Field_toNat, BitVec.toNat_ofNat]; omega)
  have polePairs : ppField cmd = BitVec.ofNat 8 pp :=
    BitVec.eq_of_toNat_eq (by rw [ppField_toNat, BitVec.toNat_ofNat]; omega)
  rw [decode_eq_sample_fields (by omega) (by omega), byte0, byte1, polePairs]

theorem Instr.wellFormed_sample_iff (byte0 byte1 pp : Byte) :
    (Instr.sample byte0 byte1 pp).wellFormed = true ↔ pp ≠ 0#8 :=
  bne_iff_ne

theorem decode_encode_sample (byte0 byte1 : Byte) {pp : Byte} (legal : pp ≠ 0#8) :
    decode (encode (.sample byte0 byte1 pp)) = .sample byte0 byte1 pp := by
  have positive : pp.toNat ≠ 0 := fun zero => legal (BitVec.eq_of_toNat_eq zero)
  have := byte0.isLt; have := byte1.isLt; have := pp.isLt
  have read := decode_of_sample_number (by omega) (by omega) (by omega) (by omega)
    (encode_sample_toNat byte0 byte1 pp)
  simpa only [BitVec.ofNat_toNat, BitVec.setWidth_eq] using read

/-- `PP = 0` makes the word of a `SAMPLE` term the illegal word of cause 3 (30_encoding.md R47). -/
theorem decode_encode_sample_zero (byte0 byte1 : Byte) :
    decode (encode (.sample byte0 byte1 0#8)) = .illegalZeroPolePairs := by
  obtain ⟨_, _, _, zeroPolePairs, _⟩ := decode_rows (encode (.sample byte0 byte1 0#8))
  have := byte0.isLt; have := byte1.isLt
  rw [zeroPolePairs, encode_sample_toNat, BitVec.toNat_ofNat]
  omega

theorem decode_encode {i : Instr} (wf : i.wellFormed = true) : decode (encode i) = i := by
  cases i with
  | skip => decide
  | sample byte0 byte1 pp =>
    exact decode_encode_sample byte0 byte1 ((Instr.wellFormed_sample_iff byte0 byte1 pp).mp wf)
  | illegalReservedOp => decide
  | illegalReservedBits => decide
  | illegalZeroPolePairs => decide

theorem decode_wellFormed (cmd : Word) : (decode cmd).wellFormed = true := by
  rcases decode_cases cmd with ⟨row, _⟩ | ⟨row, _⟩ | ⟨row, _⟩ | ⟨row, _⟩ | ⟨row, legal, _⟩
  case inr.inr.inr.inr =>
    rw [row]
    exact (Instr.wellFormed_sample_iff _ _ _).mpr legal
  all_goals rw [row]; rfl

/-- A word in the range of `SAMPLE` is its three fields under the row's constant, so none of its bits is dropped. -/
theorem encode_decode_of_sample {byte0 byte1 pp : Byte} (row : decode cmd = .sample byte0 byte1 pp) :
    encode (decode cmd) = cmd := by
  obtain ⟨_, _, _, _, sample⟩ := decode_rows cmd
  obtain ⟨low, high⟩ := sample.mp ⟨_, _, _, row⟩
  apply BitVec.eq_of_toNat_eq
  rw [decode_eq_sample_fields low high, encode_sample_toNat, byte0Field_toNat, byte1Field_toNat, ppField_toNat]
  omega

end

end Sys2Proof

namespace Sys2Proof.Machine

/-! ### What a word of each row does -/

/-- The illegal command of a cause (30_encoding.md R47). -/
def illegalOfCause : Cause → Instr
  | .reservedOp => .illegalReservedOp
  | .reservedBits => .illegalReservedBits
  | .zeroPolePairs => .illegalZeroPolePairs

/-- The rows of the opcode table: a word is a `SKIP`, a `SAMPLE` with a legal operand, or illegal with one of the three
causes (30_encoding.md R47, R48). -/
theorem decode_skip_or_sample_or_illegal (cmd : Word) :
    decode cmd = .skip ∨ (∃ byte0 byte1 pp, pp ≠ 0#8 ∧ decode cmd = .sample byte0 byte1 pp) ∨
      ∃ c, decode cmd = illegalOfCause c := by
  rcases decode_cases cmd with ⟨row, _⟩ | ⟨row, _⟩ | ⟨row, _⟩ | ⟨row, _⟩ | ⟨row, legal, _⟩
  · exact .inl row
  · exact .inr (.inr ⟨.reservedOp, row⟩)
  · exact .inr (.inr ⟨.reservedBits, row⟩)
  · exact .inr (.inr ⟨.zeroPolePairs, row⟩)
  · exact .inr (.inl ⟨_, _, _, legal, row⟩)

section

variable {w : Nat} {cmd : Word} {byte0 byte1 pp : Byte} {c : Cause}

theorem pipelineExec_of_skip (row : decode cmd = .skip) (r : Regs w) : pipelineExec r cmd = (r, none) := by
  rw [pipelineExec, row]; rfl

theorem pipelineExec_of_sample (legal : pp ≠ 0#8) (row : decode cmd = .sample byte0 byte1 pp) (r : Regs w) :
    pipelineExec r cmd = sampleEffect byte0 byte1 pp r := by
  rw [pipelineExec, row]
  exact sampleOrIllegal_legal legal r

theorem sampleOrIllegal_zero (byte0 byte1 : Byte) (r : Regs w) :
    sampleOrIllegal byte0 byte1 0#8 r = raiseIllegal .zeroPolePairs r :=
  if_pos rfl

theorem commandEffect_illegalOfCause (c : Cause) (r : Regs w) :
    commandEffect (illegalOfCause c) r = raiseIllegal c r := by
  cases c <;> rfl

theorem pipelineExec_of_illegal (row : decode cmd = illegalOfCause c) (r : Regs w) :
    pipelineExec r cmd = raiseIllegal c r := by
  rw [pipelineExec, row, commandEffect_illegalOfCause]

theorem isIllegal_of_illegal (row : decode cmd = illegalOfCause c) : isIllegal cmd = true := by
  cases c <;> simp only [isIllegal, row, illegalOfCause]

theorem wordCause_of_sample (row : decode cmd = .sample byte0 byte1 pp) : wordCause cmd = 0#2 := by
  simp only [wordCause, row]

theorem wordCause_of_illegal (row : decode cmd = illegalOfCause c) : wordCause cmd = causeCode c := by
  cases c <;> simp only [wordCause, row, illegalOfCause, causeCode]

theorem wordRaw_of_sample (row : decode cmd = .sample byte0 byte1 pp) : wordRaw cmd = rawSample byte0 byte1 := by
  simp only [wordRaw, row]

theorem wordRaw_of_illegal (row : decode cmd = illegalOfCause c) : wordRaw cmd = 0#14 := by
  cases c <;> simp only [wordRaw, row, illegalOfCause]

theorem isAnswered_of_skip (row : decode cmd = .skip) : isAnswered cmd = false := by
  rw [isAnswered, row]; rfl

theorem isAnswered_of_sample (row : decode cmd = .sample byte0 byte1 pp) : isAnswered cmd = true := by
  rw [isAnswered, row]; rfl

theorem isAnswered_of_illegal (row : decode cmd = illegalOfCause c) : isAnswered cmd = true := by
  rw [isAnswered, row]
  cases c <;> rfl

end

/-! ### The statements -/

/-- Settles O3: a `SAMPLE` word is read back from its number; the other rows have one word each. -/
theorem decodeOfEncode : Obligations.DecodeOfEncode := by
  unfold Obligations.DecodeOfEncode
  exact fun _ wf => decode_encode wf

/-- Settles O4: the decoder gives well-formed commands, which O3 gives back, and a `SAMPLE` word is its own fields. -/
theorem encodeOfDecode : Obligations.EncodeOfDecode := by
  unfold Obligations.EncodeOfDecode
  exact fun cmd => ⟨decode_wellFormed cmd, decode_encode (decode_wellFormed cmd),
    fun _ _ _ row => encode_decode_of_sample row⟩

/-- Settles O7: the number of the assembled word is the one `decode_of_sample_number` reads; an operand outside 1 to 255
fails the assembler's check. -/
theorem assemblerSampleLine : Obligations.AssemblerSampleLine := by
  unfold Obligations.AssemblerSampleLine
  refine ⟨fun b0 b1 pp h0 h1 hpp hpp' => ?word, fun b0 b1 pp outside => if_neg (by omega), rfl⟩
  case word =>
    obtain ⟨cmd, presented, number⟩ := assembleSample_toNat h0 h1 hpp hpp'
    exact ⟨cmd, presented, number, decode_of_sample_number h0 h1 hpp hpp' number⟩

/-- Settles O5: six closed words, each decoded. -/
theorem specWordsDecode : Obligations.SpecWordsDecode := by
  unfold Obligations.SpecWordsDecode
  decide

/-- Settles O13: the encoder puts the operand 0 in the field `PP`, and the term itself takes the exception of cause 3. -/
theorem zeroPolePairsIsIllegal : Obligations.ZeroPolePairsIsIllegal := by
  unfold Obligations.ZeroPolePairsIsIllegal
  intro byte0 byte1 s
  have effect : commandEffect (.sample byte0 byte1 0#8) s.block.regs = commandEffect .illegalZeroPolePairs s.block.regs :=
    sampleOrIllegal_zero byte0 byte1 s.block.regs
  exact ⟨decode_encode_sample_zero byte0 byte1, by rw [exec_eq_retire, exec_eq_retire, effect]⟩

end Sys2Proof.Machine

/-! PROOFS. Steps: `step` as `exec` of the oldest word in flight, the command port, the reset cycle, the one fault, the
output ports, and what every step keeps: the invariant of 30_encoding.md section 4 and the sticky flags of 10_state.md
section 4. -/

namespace Sys2Proof.Machine

section

variable {w : Nat}

/-! ### `step` and `exec` -/

/-- On the machine a command is the total function of 43_pipeline_commands.md R105, and it retires. -/
theorem exec_decode_eq_retire (b : Block w) (cmd : Word) :
    exec (decode cmd) ⟨w, b⟩ = .next ⟨w, b.retire (pipelineExec b.regs cmd)⟩ :=
  exec_eq_retire (decode cmd) ⟨w, b⟩

theorem step_eq_exec {b : Block w} {cmd : Word} {rest : List Word} (low : b.rst = false) (ever : b.everReset = true)
    (flight : b.inFlight = cmd :: rest) :
    step ⟨w, b⟩ = exec (decode cmd) ⟨w, { b with inFlight := rest }⟩ := by
  rw [step_of_cons low flight, if_pos ever, exec_decode_eq_retire]
  rfl

/-- A step that retires a command, with the effect of that command's word. -/
theorem step_eq_retire {b : Block w} {cmd : Word} {rest : List Word} (low : b.rst = false) (ever : b.everReset = true)
    (flight : b.inFlight = cmd :: rest) :
    step ⟨w, b⟩ = .next ⟨w, Block.retire { b with inFlight := rest } (pipelineExec b.regs cmd)⟩ := by
  rw [step_eq_exec low ever flight, exec_decode_eq_retire]

theorem step_fault_of_cons {b : Block w} {cmd : Word} {rest : List Word} (low : b.rst = false)
    (never : b.everReset = false) (flight : b.inFlight = cmd :: rest) : step ⟨w, b⟩ = .fault .commandBeforeReset := by
  rw [step_of_cons low flight, never, if_neg Bool.false_ne_true]

/-- No step changes the width (00_scope.md R3). -/
theorem step_width {s t : State} (h : step s = .next t) : t.width = s.width := by
  obtain ⟨w, b⟩ := s
  rcases step_next_cases h with ⟨_, rfl⟩ | ⟨_, _, rfl⟩ | ⟨_, _, _, _, _, rfl⟩ <;> rfl

theorem wordOfBits_32 {n : Nat} (fits : n < 2 ^ 32) : wordOfBits 32 n = BitVec.ofNat 32 n := by
  rw [wordOfBits, Nat.mod_eq_of_lt fits]

theorem decodeTableWord_32 {n : Nat} (fits : n < 2 ^ 32) :
    decodeTableWord 32 n = some (decode (BitVec.ofNat 32 n)) := by
  rw [decodeTableWord, if_pos ⟨le_refl _, fits⟩, wordOfBits_32 fits]

theorem withFetchWord_32 (b : Block w) {n : Nat} (fits : n < 2 ^ 32) :
    State.withFetchWord ⟨w, b⟩ 32 n = ⟨w, b.placeNext (BitVec.ofNat 32 n)⟩ := by
  rw [State.withFetchWord, wordOfBits_32 fits]

/-! ### The command port and the reset pin -/

theorem Block.accept_of_not_valid (b : Block w) (cmd : Word) : b.accept false cmd = b := by
  rw [Block.accept, Bool.false_and, if_neg Bool.false_ne_true]

theorem Block.accept_of_ready {b : Block w} (low : b.rst = false) (cmd : Word) :
    b.accept true cmd = { b with inFlight := b.inFlight ++ [cmd] } := by
  have ready : b.cmdReady = true := by rw [Block.cmdReady, low, Bool.not_false]
  rw [Block.accept, ready, Bool.and_true, if_pos rfl]

theorem Block.resetCycle_setRst_false (b : Block w) : b.resetCycle.setRst false = Block.reset w :=
  rfl

/-! ### The output ports -/

/-- `STATUS[0]` is `OVF` (10_state.md R13). -/
theorem statusWord_getLsbD_zero (r : Regs w) : (statusWord r).getLsbD 0 = r.ovf := by
  rw [statusWord, BitVec.getLsbD_append]; simp

/-- `STATUS[1]` is `ILL` (10_state.md R13). -/
theorem statusWord_getLsbD_one (r : Regs w) : (statusWord r).getLsbD 1 = r.ill := by
  rw [statusWord, BitVec.getLsbD_append]; simp

/-- The response ports of an empty port are 0 (30_encoding.md R41). -/
theorem Block.outPorts_of_visibleRsp_none {b : Block w} (empty : b.visibleRsp = none) :
    b.outPorts.rspErr = false ∧ b.outPorts.rspCause = 0#2 ∧ b.outPorts.rspRaw = 0#14 ∧ b.outPorts.rspStep = 0#2 ∧
      b.outPorts.rspUnwrapped = 0#(w + 14) ∧ b.outPorts.rspMechNum = 0#22 := by
  rw [Block.outPorts, empty]
  exact ⟨rfl, rfl, rfl, rfl, rfl, rfl⟩

/-- The response ports show the fields of the visible response (30_encoding.md R50). -/
theorem Block.outPorts_of_visibleRsp_some {b : Block w} {q : Response w} (shown : b.visibleRsp = some q) :
    b.outPorts.rspValid = true ∧ b.outPorts.rspErr = q.err ∧ b.outPorts.rspCause = q.cause ∧
      b.outPorts.rspRaw = q.raw ∧ b.outPorts.rspStep = q.step ∧ b.outPorts.rspUnwrapped = q.unwrapped ∧
      b.outPorts.rspMechNum = q.mechNum := by
  rw [Block.outPorts, shown]
  exact ⟨rfl, rfl, rfl, rfl, rfl, rfl, rfl⟩

/-! ### The invariant -/

/-- `STEP` is never `0b10`, which no step of the detector is (30_encoding.md R50). -/
theorem wrapTo_step_ne_two {s : Int} (hs : s = -1 ∨ s = 0 ∨ s = 1) : wrapTo 2 s ≠ 0b10#2 := by
  rcases hs with rfl | rfl | rfl <;> decide

/-- The low 14 bits of `MECH_NUM` are the RawSample (42_electrical_to_mechanical_scaler.md R91). -/
theorem mechNum_low_bits (r : Regs w) {pp : Byte} (legal : pp ≠ 0#8) :
    (wrapTo 22 (mechNumerator r.position (polePairs pp))).setWidth 14 = r.prev := by
  have field := mechNumerator_field r.position legal
  have narrow : mechNumerator r.position (polePairs pp) =
      r.wc.toInt % (pp.toNat : Int) * 16384 + (r.prev.toNat : Int) :=
    mechNumerator_counts r.wc.toInt r.prev (pp_toNat_pos legal)
  have := raw_toNat_le r.prev
  apply BitVec.eq_of_toNat_eq
  rw [BitVec.toNat_setWidth]
  omega

theorem mechNum_lt (u : Int) {pp : Byte} (legal : pp ≠ 0#8) :
    (wrapTo 22 (mechNumerator u (polePairs pp))).toNat < 16384 * 255 := by
  have field := mechNumerator_field u legal
  have ⟨positive, le255⟩ := polePairs_bounds legal
  have ⟨_, below⟩ := mechNumerator_bounds u positive
  omega

theorem sampleResponse_goodShape (hw : 0 < w) {pp : Byte} (legal : pp ≠ 0#8) {s : Int} (hs : s = -1 ∨ s = 0 ∨ s = 1)
    (r : Regs w) : Response.goodShape (sampleResponse pp s r) := by
  have unwrapped : (wrapTo (w + 14) r.position).setWidth 14 = r.prev := by
    rw [Regs.position, wrapTo_unwrappedCounts hw, BitVec.setWidth_append, dif_pos (le_refl 14), BitVec.setWidth_eq]
  exact ⟨rfl, wrapTo_step_ne_two hs, unwrapped, mechNum_low_bits r legal, mechNum_lt r.position legal⟩

theorem causeCode_ne_zero (c : Cause) : causeCode c ≠ 0#2 := by
  cases c <;> decide

theorem errorResponse_errorShape (c : Cause) : Response.errorShape (errorResponse w c) :=
  ⟨causeCode_ne_zero c, rfl, rfl, rfl, rfl⟩

theorem Block.portsConsistent_of_rsp_none {b : Block w} (empty : b.rsp = none) : b.PortsConsistent := by
  intro q shown
  rw [empty] at shown
  contradiction

/-- A good response agrees with the registers its command left (30_encoding.md R50). -/
theorem Block.retire_sampleEffect_portsConsistent (hw : 0 < w) {pp : Byte} (legal : pp ≠ 0#8) (byte0 byte1 : Byte)
    (b : Block w) (r : Regs w) : (b.retire (sampleEffect byte0 byte1 pp r)).PortsConsistent := by
  intro q shown
  obtain rfl := Option.some.inj ((sampleEffect_rsp byte0 byte1 pp r).symm.trans shown)
  exact ⟨fun _ => ⟨sampleResponse_goodShape hw legal (detectorStep_values _) _, rfl, wrapTo_unwrappedCounts hw _ _⟩,
    fun err => absurd err Bool.false_ne_true⟩

/-- An error response goes with `ILL = 1` (60_exceptions.md R128). -/
theorem Block.retire_raiseIllegal_portsConsistent (c : Cause) (b : Block w) (r : Regs w) :
    (b.retire (raiseIllegal c r)).PortsConsistent := by
  intro q shown
  obtain rfl := Option.some.inj ((raiseIllegal_rsp c r).symm.trans shown)
  exact ⟨fun good => absurd good.symm Bool.false_ne_true, fun _ => ⟨errorResponse_errorShape c, rfl⟩⟩

/-- Whatever was on the port before, the retirement of a word leaves port and registers consistent. -/
theorem Block.retire_portsConsistent (hw : 0 < w) (b : Block w) (r : Regs w) (cmd : Word) :
    (b.retire (pipelineExec r cmd)).PortsConsistent := by
  rcases decode_skip_or_sample_or_illegal cmd with row | ⟨byte0, byte1, pp, legal, row⟩ | ⟨c, row⟩
  · rw [pipelineExec_of_skip row]
    exact Block.portsConsistent_of_rsp_none rfl
  · rw [pipelineExec_of_sample legal row]
    exact Block.retire_sampleEffect_portsConsistent hw legal byte0 byte1 b r
  · rw [pipelineExec_of_illegal row]
    exact Block.retire_raiseIllegal_portsConsistent c b r

theorem State.inv_of_rsp_none {b : Block w} (hw : 2 ≤ w) (empty : b.rsp = none) : State.Inv ⟨w, b⟩ :=
  ⟨hw, Block.portsConsistent_of_rsp_none empty, fun shown => absurd empty shown⟩

/-! ### The sticky flags -/

/-- No command clears `OVF` (10_state.md R13). -/
theorem pipelineExec_ovf_of_ovf {r : Regs w} (set : r.ovf = true) (cmd : Word) : (pipelineExec r cmd).1.ovf = true := by
  rcases decode_skip_or_sample_or_illegal cmd with row | ⟨byte0, byte1, pp, legal, row⟩ | ⟨c, row⟩
  · rw [pipelineExec_of_skip row, set]
  · rw [pipelineExec_of_sample legal row, sampleEffect_ovf, set, Bool.true_or]
  · rw [pipelineExec_of_illegal row, raiseIllegal_ovf, set]

/-- `ILL` after a command: set before it, or the command is illegal (10_state.md R13). -/
theorem pipelineExec_ill (r : Regs w) (cmd : Word) : (pipelineExec r cmd).1.ill = (r.ill || isIllegal cmd) := by
  rcases decode_skip_or_sample_or_illegal cmd with row | ⟨byte0, byte1, pp, legal, row⟩ | ⟨c, row⟩
  · rw [pipelineExec_of_skip row, isIllegal_of_skip row, Bool.or_false]
  · rw [pipelineExec_of_sample legal row, isIllegal_of_sample row, Bool.or_false, sampleEffect_ill]
  · rw [pipelineExec_of_illegal row, isIllegal_of_illegal row, Bool.or_true, raiseIllegal_ill]

/-- An idle cycle keeps the registers and no command clears a flag (10_state.md R13, 60_exceptions.md R129). -/
theorem step_keeps_set_flags {b : Block w} {t : State} (low : b.rst = false) (h : step ⟨w, b⟩ = .next t) :
    (b.regs.ovf = true → t.block.regs.ovf = true) ∧ (b.regs.ill = true → t.block.regs.ill = true) := by
  rcases step_next_cases h with ⟨high, _⟩ | ⟨_, _, rfl⟩ | ⟨cmd, rest, _, _, _, rfl⟩
  · exact absurd (low.symm.trans high) Bool.false_ne_true
  · exact ⟨id, id⟩
  · exact ⟨fun set => pipelineExec_ovf_of_ovf set cmd,
      fun set => (pipelineExec_ill b.regs cmd).trans (by rw [set, Bool.true_or])⟩

/-! ### The first `SAMPLE` after reset -/

/-- From `PREV = 0` the delta is the RawSample, which is never far enough below 0 to count up
(41_wraparound_detector.md section 4). -/
theorem detectorStep_delta_zero (raw : Raw) :
    detectorStep (delta raw 0#14) = if 8192 < raw.toNat then -1 else 0 := by
  have fromZero : delta raw 0#14 = raw.toNat := sub_zero _
  rw [fromZero]
  split_ifs with far
  · exact detectorStep_eq_neg_one_iff.mpr (by omega)
  · exact detectorStep_eq_zero_iff.mpr (by omega)

/-- No step overflows from a count of 0 (41_wraparound_detector.md R78). -/
theorem wcOverflows_wrapSum_zero (hw : 2 ≤ w) {s : Int} (hs : s = -1 ∨ s = 0 ∨ s = 1) :
    wcOverflows w (wrapSum 0#w s) = false := by
  have half_ge : (2 : Int) ^ 1 ≤ 2 ^ (w - 1) := pow_le_pow_right₀ (by norm_num) (by omega)
  rw [Bool.eq_false_iff, ne_eq, wcOverflows_wrapSum_iff _ hs, BitVec.toInt_zero]
  omega

end

/-! ### The statements -/

/-- Settles O24: a reset cycle and an idle cycle empty the port; a retirement leaves a response of its own command, and
retires only after a reset. -/
theorem stepKeepsInvariant : Obligations.StepKeepsInvariant := by
  unfold Obligations.StepKeepsInvariant
  rintro ⟨w, b⟩ t ⟨hw, _, _⟩ h
  rcases step_next_cases h with ⟨_, rfl⟩ | ⟨_, _, rfl⟩ | ⟨cmd, rest, _, ever, _, rfl⟩
  · exact State.inv_of_rsp_none hw (Block.resetCycle_rsp b)
  · exact State.inv_of_rsp_none hw (Block.idleCycle_rsp b)
  · exact ⟨hw, Block.retire_portsConsistent (Nat.zero_lt_of_lt hw) _ b.regs cmd, fun _ => ever⟩

/-- Settles O10: the effect of `exec_sample`, each field of the response read back as the integer it was made from. -/
theorem sampleCompletes : Obligations.SampleCompletes := by
  unfold Obligations.SampleCompletes
  intro byte0 byte1 pp w b hw legal
  exact ⟨_, _, (rawSample byte0 byte1).toNat, _, _, _, _, congrArg Nat.cast (rawSample_toNat byte0 byte1), rfl, rfl,
    rfl, rfl, exec_sample legal b, rfl, rfl, rfl, rfl, sampleEffect_rsp .., rfl, rfl, rfl, detectorStep_field _,
    position_field (by omega) _, mechNumerator_field _ legal, Block.retire_inFlight .., Block.retire_rst ..,
    Block.retire_everReset ..⟩

/-- Settles O26: a step with the pin low keeps a flag that is set. -/
theorem onlyResetClearsStickyFlags : Obligations.OnlyResetClearsStickyFlags := by
  unfold Obligations.OnlyResetClearsStickyFlags
  rintro ⟨w, b⟩ t h cleared
  by_contra notHigh
  obtain ⟨keepsOvf, keepsIll⟩ := step_keeps_set_flags (Bool.eq_false_of_not_eq_true notHigh) h
  rcases cleared with ⟨set, clear⟩ | ⟨set, clear⟩
  · exact absurd (keepsOvf set) (Bool.eq_false_iff.mp clear)
  · exact absurd (keepsIll set) (Bool.eq_false_iff.mp clear)

/-- Settles O14: the retirement writes the two fields. -/
theorem execIsThePipelineFunction : Obligations.ExecIsThePipelineFunction := by
  unfold Obligations.ExecIsThePipelineFunction
  exact fun _ b cmd => exec_decode_eq_retire b cmd

/-- Settles O15: with the pin low and a reset seen, `step` fetches the oldest word and runs it. -/
theorem stepRunsDecodedCommand : Obligations.StepRunsDecodedCommand := by
  unfold Obligations.StepRunsDecodedCommand
  exact fun _ _ _ _ low ever flight => step_eq_exec low ever flight

/-- Settles O16: the placed word is the oldest one in flight of a block with the pin low and a reset seen. -/
theorem fetchWordRunsNext : Obligations.FetchWordRunsNext := by
  unfold Obligations.FetchWordRunsNext
  intro w b n fits
  refine ⟨decodeTableWord_32 fits, ?_⟩
  rw [withFetchWord_32 b fits, step_eq_exec (Block.placeNext_rst b _) (Block.placeNext_everReset b _)
    (Block.placeNext_inFlight b _)]
  rfl

/-- Settles O17: `cmd_valid` and `cmd_ready` are the two conditions of an acceptance. -/
theorem acceptedWordsQueueInOrder : Obligations.AcceptedWordsQueueInOrder := by
  unfold Obligations.AcceptedWordsQueueInOrder
  exact fun _ b cmd => ⟨Block.accept_of_not_valid b cmd, fun low => Block.accept_of_ready low cmd⟩

/-- Settles O18: the step is the idle cycle. -/
theorem idleStepOnlyClearsResponse : Obligations.IdleStepOnlyClearsResponse := by
  unfold Obligations.IdleStepOnlyClearsResponse
  exact fun _ _ low flight => step_of_nil low flight

/-- Settles O20: the reset cycle leaves the reset block but for the pin. -/
theorem resetReachesResetState : Obligations.ResetReachesResetState := by
  unfold Obligations.ResetReachesResetState
  exact fun _ b => ⟨_, step_of_rst (Block.setRst_rst b true), Block.resetCycle_setRst_false _⟩

/-- Settles O21: the three kinds of step that have a next state, and the one that does not. -/
theorem onlyCommandsBeforeResetFault : Obligations.OnlyCommandsBeforeResetFault := by
  unfold Obligations.OnlyCommandsBeforeResetFault
  intro w b
  refine ⟨fun safe => ?next, fun never low busy => ?fault⟩
  case next =>
    rcases Bool.eq_false_or_eq_true b.rst with high | low
    · exact ⟨_, step_of_rst high⟩
    · cases flight : b.inFlight with
      | nil => exact ⟨_, step_of_nil low flight⟩
      | cons cmd rest =>
        have ever : b.everReset = true := by simpa [low, flight] using safe
        exact ⟨_, step_eq_retire low ever flight⟩
  case fault =>
    obtain ⟨cmd, rest, flight⟩ := List.exists_cons_of_ne_nil busy
    exact step_fault_of_cons low never flight

/-- Settles O23: the observation ports are the registers; the response ports are those of the visible response. -/
theorem portsShowState : Obligations.PortsShowState := by
  unfold Obligations.PortsShowState
  intro w b
  refine ⟨rfl, rfl, statusWord_getLsbD_zero b.regs, statusWord_getLsbD_one b.regs, Block.outPorts_cmdReady b,
    fun invalid => ?empty, fun q low shown => ?shown⟩
  case empty =>
    rw [Block.outPorts_rspValid, Option.isSome_eq_false_iff, Option.isNone_iff_eq_none] at invalid
    exact Block.outPorts_of_visibleRsp_none invalid
  case shown => exact Block.outPorts_of_visibleRsp_some ((Block.visibleRsp_of_not_rst low).trans shown)

/-- Settles O25: nothing is on the port after reset. -/
theorem resetHasInvariant : Obligations.ResetHasInvariant := by
  unfold Obligations.ResetHasInvariant
  exact ⟨State.inv_of_rsp_none (by decide) Block.reset_rsp, fun _ hw => State.inv_of_rsp_none hw Block.reset_rsp⟩

/-- Settles O36: from `PREV = 0` and `WC = 0` the step is -1 or 0, which the count 0 takes without an overflow. -/
theorem firstSampleTransient : Obligations.FirstSampleTransient := by
  unfold Obligations.FirstSampleTransient
  intro w byte0 byte1 pp hw legal
  have fits : wcOverflows w (wrapSum 0#w (detectorStep (delta (rawSample byte0 byte1) 0#14))) = false :=
    wcOverflows_wrapSum_zero hw (detectorStep_values _)
  refine ⟨_, _, exec_sample legal _, sampleEffect_rsp .., rfl, fits, rfl, ?count, ?numerator⟩
  case count =>
    calc (wrapTo w (wrapSum 0#w (detectorStep (delta (rawSample byte0 byte1) 0#14)))).toInt
        = wrapSum 0#w (detectorStep (delta (rawSample byte0 byte1) 0#14)) := wrapTo_toInt (by omega) fits
      _ = if 8192 < (rawSample byte0 byte1).toNat then -1 else 0 := by
        rw [wrapSum, BitVec.toInt_zero, zero_add, detectorStep_delta_zero]
  case numerator =>
    rw [add_comm]
    exact mechNumerator_field _ legal

/-- Settles O56: a step leaves the width, and the reset machine is built at the default. -/
theorem widthIsAParameter : Obligations.WidthIsAParameter := by
  unfold Obligations.WidthIsAParameter
  exact ⟨fun _ _ h => step_width h, State.reset_eq⟩

end Sys2Proof.Machine

/-! PROOFS. Stages 2 and 3 against the degrees: the detector's rule in degrees (41_wraparound_detector.md R74), the move
of the position (R79), the resolution of the numerator (42_electrical_to_mechanical_scaler.md R95) and DOC's decreasing
sequence (43_pipeline_commands.md R119). -/

namespace Sys2Proof.Machine

/-! ### DOC's step on exact angles -/

section

variable {e prev : Rat}

theorem detectRef_down (count : Int) (far : 180 < e - prev) : detectRef e prev count = (-1, count + -1, e) := by
  rw [detectRef]
  simp only [gt_iff_lt, if_pos far]

theorem detectRef_still (count : Int) (low : -180 ≤ e - prev) (high : e - prev ≤ 180) :
    detectRef e prev count = (0, count + 0, e) := by
  rw [detectRef]
  simp only [gt_iff_lt, if_neg (not_lt.mpr high), if_neg (not_lt.mpr low)]

/-- DOC's seven steps from the count that steps 1 to 4 leave: step 7 is the floor modulus
(42_electrical_to_mechanical_scaler.md R89, 43_pipeline_commands.md R108). -/
theorem unwrapRef_of_detectRef {count s count' : Int} (p : Nat) (detected : detectRef e prev count = (s, count', e)) :
    unwrapRef e (prev, count) p =
      ((e, count'), e + (count' : Rat) * 360, ratMod ((e + (count' : Rat) * 360) / (p : Rat)) 360) := by
  simp only [unwrapRef, detected, scaleRef, normaliseRef_eq_ratMod]

/-- The same at `P = 4`, the turns of a negative wrap count written in degrees. -/
theorem unwrapRef_four {count s count' : Int} {turns : Rat} (detected : detectRef e prev count = (s, count', e))
    (degrees : (count' : Rat) * 360 = -turns) :
    unwrapRef e (prev, count) 4 = ((e, count'), e - turns, ratMod ((e - turns) / 4) 360) := by
  rw [unwrapRef_of_detectRef 4 detected, degrees, ← sub_eq_add_neg, Nat.cast_ofNat]

end

/-! ### Resolution -/

/-- One count of the numerator (42_electrical_to_mechanical_scaler.md R95). -/
theorem mechDeg_eq_counts (n p : Nat) : mechDeg n p = (n : Rat) * (45 / (2048 * (p : Rat))) := by
  have turn : (360 : Rat) / 16384 = 45 / 2048 := by norm_num
  rw [mechDeg, mul_div_assoc, div_mul_eq_div_div, turn, ← div_mul_eq_div_div]

/-- At `P = 1` the numerator is the RawSample (42_electrical_to_mechanical_scaler.md R95). -/
theorem mechNumerator_one {w : Nat} (wc : BitVec w) (raw : Raw) :
    mechNumerator (unwrappedCounts wc raw) (polePairs 1#8) = (raw.toNat : Int) := by
  have narrow := mechNumerator_counts wc.toInt raw Nat.one_pos
  rwa [Nat.cast_one, Int.emod_one, zero_mul, zero_add] at narrow

theorem mechDeg_one (raw : Raw) : mechDeg raw.toNat 1 = elecDeg raw := by
  rw [mechDeg_eq_counts, elecDeg_eq_counts, Nat.cast_one, mul_one]

/-! ### The statements -/

/-- Settles O32: half a turn is 8192 counts. -/
theorem detectorMatchesDegreeRule : Obligations.DetectorMatchesDegreeRule := by
  unfold Obligations.DetectorMatchesDegreeRule
  exact detectRef_elecDeg

/-- Settles O35: the position moves by the delta and the whole turn of the step, which is -1, 1 or 0 by the delta's
range. -/
theorem positionMovesAtMostHalfTurn : Obligations.PositionMovesAtMostHalfTurn := by
  unfold Obligations.PositionMovesAtMostHalfTurn
  intro w byte0 byte1 pp r r' q hw legal h fits
  obtain ⟨rfl, rfl⟩ := commandEffect_sample_inv legal h
  rw [detectorStep_field, sampleEffect_prev] at fits
  rw [sampleEffect_position_sub (by omega) byte0 byte1 pp r fits, sampleEffect_prev]
  refine ⟨abs_delta_add_step_le _ _, fun far => ?down, fun far => ?up, fun low high => ?still⟩
  case down => rw [detectorStep_eq_neg_one_iff.mpr far]; ring
  case up => rw [detectorStep_eq_one_iff.mpr far]; ring
  case still => rw [detectorStep_eq_zero_iff.mpr ⟨low, high⟩]; ring

/-- Settles O47: a first angle above 180 is a step down from `PREV = 0`, a later one at most 180 below is none; DOC's
steps 5 to 7 then see a wrap count of -1 or -2. -/
theorem decreasingSequence : Obligations.DecreasingSequence := by
  unfold Obligations.DecreasingSequence
  refine ⟨fun e above _ => ⟨?first, ?again⟩, fun e prev _ below _ near => ?later⟩
  case first => exact unwrapRef_four (detectRef_down 0 (by linarith)) (by norm_num)
  case again => exact unwrapRef_four (detectRef_down (-1) (by linarith)) (by norm_num)
  case later => exact unwrapRef_four (detectRef_still (-1) (by linarith) (by linarith)) (by norm_num)

/-- Settles O44: at `P = 1` the narrow form leaves the RawSample, and a count of the numerator has a fixed size. -/
theorem resolutionAndIdentity : Obligations.ResolutionAndIdentity := by
  unfold Obligations.ResolutionAndIdentity
  refine ⟨fun w wc raw => ⟨mechNumerator_one wc raw, mechDeg_one raw⟩, fun n p _ => ?resolution⟩
  case resolution =>
    rw [mechDeg_eq_counts, mechDeg_eq_counts]
    push_cast
    ring

end Sys2Proof.Machine

/-! PROOFS. Runs over a list of words (43_pipeline_commands.md R117): what a word of each row adds to a run, the true
position under the sampling-rate condition (41_wraparound_detector.md R81), the wrap count as the sum of the reported
steps, the responses, what the last word leaves, and the steps of the machine as such a run. -/

namespace Sys2Proof.Machine

section

variable {w : Nat} {cmd : Word} {byte0 byte1 pp : Byte} {c : Cause}

/-! ### One word at the front of a run -/

theorem runWords_cons_of_skip (row : decode cmd = .skip) (r : Regs w) (rest : List Word) :
    runWords r (cmd :: rest) = runWords r rest := by
  rw [runWords_cons, pipelineExec_of_skip row]
  rfl

theorem runWords_cons_of_sample (legal : pp ≠ 0#8) (row : decode cmd = .sample byte0 byte1 pp) (r : Regs w)
    (rest : List Word) :
    runWords r (cmd :: rest) = ((runWords (sampleEffect byte0 byte1 pp r).1 rest).1,
      sampleResponse pp (detectorStep (delta (rawSample byte0 byte1) r.prev)) (sampleEffect byte0 byte1 pp r).1 ::
        (runWords (sampleEffect byte0 byte1 pp r).1 rest).2) := by
  rw [runWords_cons, pipelineExec_of_sample legal row, sampleEffect_rsp]
  rfl

theorem runWords_cons_of_illegal (row : decode cmd = illegalOfCause c) (r : Regs w) (rest : List Word) :
    runWords r (cmd :: rest) =
      ((runWords (raiseIllegal c r).1 rest).1, errorResponse w c :: (runWords (raiseIllegal c r).1 rest).2) := by
  rw [runWords_cons, pipelineExec_of_illegal row]
  rfl

theorem lastRaw_cons_of_skip (row : decode cmd = .skip) (start : Raw) (rest : List Word) :
    lastRaw start (cmd :: rest) = lastRaw start rest := by
  simp only [lastRaw, row]

theorem lastRaw_cons_of_sample (row : decode cmd = .sample byte0 byte1 pp) (start : Raw) (rest : List Word) :
    lastRaw start (cmd :: rest) = lastRaw (rawSample byte0 byte1) rest := by
  simp only [lastRaw, row]

theorem lastRaw_cons_of_illegal (row : decode cmd = illegalOfCause c) (start : Raw) (rest : List Word) :
    lastRaw start (cmd :: rest) = lastRaw start rest := by
  cases c <;> simp only [lastRaw, row, illegalOfCause]

theorem feeds_cons_of_skip (row : decode cmd = .skip) (t t' : Int) (rest : List Word) :
    Feeds w t (cmd :: rest) t' ↔ Feeds w t rest t' := by
  simp only [Feeds, row]

theorem feeds_cons_of_sample (row : decode cmd = .sample byte0 byte1 pp) (t t' : Int) (rest : List Word) :
    Feeds w t (cmd :: rest) t' ↔
      ∃ t1 : Int, ((rawSample byte0 byte1).toNat : Int) = t1 % 16384 ∧ |t1 - t| < 8192 ∧ fitsPosition w t1 ∧
        Feeds w t1 rest t' := by
  simp only [Feeds, row]

theorem not_feeds_cons_of_illegal (row : decode cmd = illegalOfCause c) (t t' : Int) (rest : List Word) :
    ¬ Feeds w t (cmd :: rest) t' := by
  cases c <;> simp only [Feeds, row, illegalOfCause, not_false_eq_true]

/-! ### The true position -/

/-- The registers stand for the position whose whole turns are in `WC` and whose rest is in `PREV`
(41_wraparound_detector.md R79). -/
theorem position_eq_iff (r : Regs w) (t : Int) :
    r.position = t ↔ r.wc.toInt = t / 16384 ∧ (r.prev.toNat : Int) = t % 16384 := by
  have := raw_toNat_le r.prev
  rw [Regs.position, unwrappedCounts]
  omega

/-- Less than half a turn apart, two true positions differ in their whole turns by exactly the detector's step
(41_wraparound_detector.md R81). -/
theorem turns_add_detectorStep {raw prev : Raw} {t t1 : Int} (hprev : (prev.toNat : Int) = t % 16384)
    (hraw : (raw.toNat : Int) = t1 % 16384) (near : |t1 - t| < 8192) :
    t / 16384 + detectorStep (delta raw prev) = t1 / 16384 := by
  have apart : delta raw prev = t1 % 16384 - t % 16384 := by rw [delta, hraw, hprev]
  obtain ⟨low, high⟩ := abs_lt.mp near
  rcases detectorStep_cases (delta raw prev) with ⟨hs, _⟩ | ⟨hs, _⟩ | ⟨hs, _, _⟩ <;> rw [hs] <;> omega

theorem wcOverflows_of_fitsPosition {t : Int} (fits : fitsPosition w t) : wcOverflows w (t / 16384) = false := by
  obtain ⟨low, high⟩ := fits
  rw [Bool.eq_false_iff, ne_eq, wcOverflows_iff]
  omega

/-- The step lemma of R81: an honest `SAMPLE` moves the registers from one true position to the next, without an
overflow. -/
theorem sampleEffect_tracks (hw : 0 < w) (pp : Byte) {r : Regs w} {t1 : Int}
    (hraw : ((rawSample byte0 byte1).toNat : Int) = t1 % 16384) (near : |t1 - r.position| < 8192)
    (fits : fitsPosition w t1) :
    (sampleEffect byte0 byte1 pp r).1.position = t1 ∧ (sampleEffect byte0 byte1 pp r).1.ovf = r.ovf := by
  obtain ⟨turns, rest⟩ := (position_eq_iff r _).mp rfl
  have sum : wrapSum r.wc (detectorStep (delta (rawSample byte0 byte1) r.prev)) = t1 / 16384 := by
    rw [wrapSum, turns, turns_add_detectorStep rest hraw near]
  have inRange := wcOverflows_of_fitsPosition fits
  refine ⟨(position_eq_iff _ t1).mpr ⟨?turns, hraw⟩, ?ovf⟩
  case turns => rw [sampleEffect_wc, sum, wrapTo_toInt hw inRange]
  case ovf => rw [sampleEffect_ovf, sum, inRange, Bool.or_false]

/-- R81 along a run: by induction on the words the host feeds. -/
theorem runWords_tracks (hw : 0 < w) {cmds : List Word} {r : Regs w} {t' : Int} (honest : Feeds w r.position cmds t') :
    (runWords r cmds).1.position = t' ∧ (runWords r cmds).1.ovf = r.ovf ∧ (runWords r cmds).1.ill = r.ill := by
  induction cmds generalizing r with
  | nil => exact ⟨Eq.symm honest, rfl, rfl⟩
  | cons cmd rest ih =>
    rcases decode_skip_or_sample_or_illegal cmd with row | ⟨byte0, byte1, pp, legal, row⟩ | ⟨c, row⟩
    · rw [feeds_cons_of_skip row] at honest
      rw [runWords_cons_of_skip row]
      exact ih honest
    · obtain ⟨t1, hraw, near, fits, honest⟩ := (feeds_cons_of_sample row _ _ _).mp honest
      obtain ⟨position, ovf⟩ := sampleEffect_tracks hw pp hraw near fits
      obtain ⟨last, lastOvf, lastIll⟩ := ih (position.symm ▸ honest)
      rw [runWords_cons_of_sample legal row]
      exact ⟨last, lastOvf.trans ovf, lastIll⟩
    · exact absurd honest (not_feeds_cons_of_illegal row _ _ _)

/-! ### The wrap count as a sum of steps -/

/-- A command that leaves `OVF` clear moves `WC` by exactly the step its response reports, by 0 if it has none. -/
theorem pipelineExec_wc_of_not_ovf (hw : 0 < w) {r : Regs w} (clear : (pipelineExec r cmd).1.ovf = false) :
    (pipelineExec r cmd).1.wc.toInt =
      r.wc.toInt + ((pipelineExec r cmd).2.toList.map (fun q => q.step.toInt)).sum := by
  rcases decode_skip_or_sample_or_illegal cmd with row | ⟨byte0, byte1, pp, legal, row⟩ | ⟨c, row⟩
  · rw [pipelineExec_of_skip row]
    exact (add_zero _).symm
  · rw [pipelineExec_of_sample legal row, sampleEffect_ovf, Bool.or_eq_false_iff] at clear
    rw [pipelineExec_of_sample legal row, sampleEffect_rsp, sampleEffect_wc, wrapTo_toInt hw clear.2, wrapSum]
    simp [sampleResponse, detectorStep_field]
  · rw [pipelineExec_of_illegal row]
    simp [errorResponse]

/-- Along a run: a flag clear at the end was clear before every command. -/
theorem runWords_wc_of_not_ovf (hw : 0 < w) {cmds : List Word} {r : Regs w} (clear : (runWords r cmds).1.ovf = false) :
    r.ovf = false ∧
      (runWords r cmds).1.wc.toInt = r.wc.toInt + ((runWords r cmds).2.map (fun q => q.step.toInt)).sum := by
  induction cmds generalizing r with
  | nil => exact ⟨clear, (add_zero _).symm⟩
  | cons cmd rest ih =>
    rw [runWords_cons] at clear ⊢
    obtain ⟨clearNow, later⟩ := ih clear
    have now := pipelineExec_wc_of_not_ovf hw clearNow
    refine ⟨?before, ?sum⟩
    case before =>
      by_contra set
      exact absurd (pipelineExec_ovf_of_ovf (Bool.eq_true_of_not_eq_false set) cmd) (Bool.eq_false_iff.mp clearNow)
    case sum => rw [later, now, List.map_append, List.sum_append, add_assoc]

/-! ### Responses and last values -/

/-- `SKIP`s leave no trace in a run (43_pipeline_commands.md R111). -/
theorem runWords_filter_isAnswered (r : Regs w) (cmds : List Word) :
    runWords r (cmds.filter isAnswered) = runWords r cmds := by
  induction cmds generalizing r with
  | nil => rfl
  | cons cmd rest ih =>
    rcases Bool.eq_false_or_eq_true (isAnswered cmd) with answered | silent
    · rw [List.filter_cons_of_pos answered, runWords_cons, runWords_cons, ih]
    · have row : decode cmd = .skip := by simpa [isAnswered] using silent
      rw [List.filter_cons_of_neg (Bool.eq_false_iff.mp silent), runWords_cons_of_skip row, ih]

/-- `ERR`, `CAUSE` and `RAW` of each response are those of its word (30_encoding.md R50, R51). -/
theorem runWords_responses (r : Regs w) (cmds : List Word) :
    (runWords r cmds).2.map (fun q => (q.err, q.cause, q.raw)) =
      (cmds.filter isAnswered).map (fun cmd => (isIllegal cmd, wordCause cmd, wordRaw cmd)) := by
  induction cmds generalizing r with
  | nil => rfl
  | cons cmd rest ih =>
    rcases decode_skip_or_sample_or_illegal cmd with row | ⟨byte0, byte1, pp, legal, row⟩ | ⟨c, row⟩
    · rw [runWords_cons_of_skip row, List.filter_cons_of_neg (Bool.eq_false_iff.mp (isAnswered_of_skip row)), ih]
    · rw [runWords_cons_of_sample legal row, List.filter_cons_of_pos (isAnswered_of_sample row), List.map_cons,
        List.map_cons, ih, isIllegal_of_sample row, wordCause_of_sample row, wordRaw_of_sample row]
      rfl
    · rw [runWords_cons_of_illegal row, List.filter_cons_of_pos (isAnswered_of_illegal row), List.map_cons,
        List.map_cons, ih, isIllegal_of_illegal row, wordCause_of_illegal row, wordRaw_of_illegal row]
      rfl

theorem runWords_prev (r : Regs w) (cmds : List Word) : (runWords r cmds).1.prev = lastRaw r.prev cmds := by
  induction cmds generalizing r with
  | nil => rfl
  | cons cmd rest ih =>
    rcases decode_skip_or_sample_or_illegal cmd with row | ⟨byte0, byte1, pp, legal, row⟩ | ⟨c, row⟩
    · rw [runWords_cons_of_skip row, lastRaw_cons_of_skip row, ih]
    · rw [runWords_cons_of_sample legal row, lastRaw_cons_of_sample row, ih, sampleEffect_prev]
    · rw [runWords_cons_of_illegal row, lastRaw_cons_of_illegal row, ih, raiseIllegal_prev]

theorem runWords_ill (r : Regs w) (cmds : List Word) :
    (runWords r cmds).1.ill = (r.ill || cmds.any isIllegal) := by
  induction cmds generalizing r with
  | nil => exact (Bool.or_false _).symm
  | cons cmd rest ih => rw [runWords_cons, ih, pipelineExec_ill, List.any_cons, Bool.or_assoc]

/-! ### The steps of the machine as a run -/

/-- What a retirement shows, with the pin low (30_encoding.md R41). -/
theorem State.shown_retire {b : Block w} (low : b.rst = false) (e : Regs w × Option (Response w)) :
    State.shown ⟨w, b.retire e⟩ = e.2.toList.map (SizedResponse.mk w) := by
  rw [State.shown, Block.visibleRsp_of_not_rst (b := b.retire e) low, Block.retire_rsp]

/-- Stepping through the words in flight is the run over them, by induction on those words: each step retires the oldest
one (20_memory.md R30). -/
theorem steps_eq_runWords {words : List Word} {b : Block w} (flight : b.inFlight = words) (low : b.rst = false)
    (ever : b.everReset = true) :
    (∃ t : Block w, Sys2Proof.core.run words.length ⟨w, b⟩ = .next ⟨w, t⟩ ∧
      t.regs = (runWords b.regs words).1 ∧ t.inFlight = [] ∧ t.rst = false ∧ t.everReset = true) ∧
    shownResponses words.length ⟨w, b⟩ = (runWords b.regs words).2.map (SizedResponse.mk w) := by
  induction words generalizing b with
  | nil => exact ⟨⟨b, rfl, rfl, flight, low, ever⟩, rfl⟩
  | cons cmd rest ih =>
    have now := step_eq_retire low ever flight
    obtain ⟨⟨t, run, regs, done⟩, shown⟩ :=
      ih (b := Block.retire { b with inFlight := rest } (pipelineExec b.regs cmd)) rfl low ever
    rw [List.length_cons, runWords_cons]
    refine ⟨⟨t, (core_run_succ _ _ _ now).trans run, regs, done⟩, ?shown⟩
    case shown =>
      rw [shownResponses_succ _ _ _ now, shown, State.shown_retire (b := { b with inFlight := rest }) low,
        List.map_append]
      rfl

end

/-! ### The statements -/

/-- Settles O37: the position by `runWords_tracks`; its whole turns and its rest are the two registers. -/
theorem wrapCountTracksTruePosition : Obligations.WrapCountTracksTruePosition := by
  unfold Obligations.WrapCountTracksTruePosition
  rintro w r cmds t t' hw rfl honest
  obtain ⟨position, ovf, ill⟩ := runWords_tracks (by omega) honest
  obtain ⟨wc, prev⟩ := (position_eq_iff _ t').mp position
  exact ⟨position, wc, prev, ovf, ill⟩

/-- Settles O52: by induction on the words, each adding its own step. -/
theorem wrapCountIsSumOfSteps : Obligations.WrapCountIsSumOfSteps := by
  unfold Obligations.WrapCountIsSumOfSteps
  exact fun _ _ _ hw clear => runWords_wc_of_not_ovf (by omega) clear

/-- Settles O27: the induction over the words in flight. -/
theorem stepsRetireInOrder : Obligations.StepsRetireInOrder := by
  unfold Obligations.StepsRetireInOrder
  exact fun _ _ low ever => steps_eq_runWords rfl low ever

/-- Settles O49: a word that is not answered is a `SKIP`. -/
theorem skipsMayBeDropped : Obligations.SkipsMayBeDropped := by
  unfold Obligations.SkipsMayBeDropped
  exact fun _ r cmds => runWords_filter_isAnswered r cmds

/-- Settles O50: the response of each row has the three fields of its word. -/
theorem responsesPairWithCommands : Obligations.ResponsesPairWithCommands := by
  unfold Obligations.ResponsesPairWithCommands
  exact fun _ r cmds => runWords_responses r cmds

/-- Settles O51: only a legal `SAMPLE` writes `PREV`, only an illegal word sets `ILL`. -/
theorem runLeavesLastSample : Obligations.RunLeavesLastSample := by
  unfold Obligations.RunLeavesLastSample
  exact fun _ r cmds => ⟨runWords_prev r cmds, runWords_ill r cmds⟩

end Sys2Proof.Machine

/-! PROOFS. Several pipelines fed in any interleaving (60_exceptions.md R140): each one's registers and responses are
those of its own inputs alone, and its reset begins it anew. -/

namespace Sys2Proof.Machine

/-! ### One pipeline -/

section

variable {w : Nat}

/-- Inputs one after the other: the later ones go from the registers the earlier ones leave. -/
theorem runInputs_append (r : Regs w) (before after : List PipelineInput) :
    runInputs r (before ++ after) = ((runInputs (runInputs r before).1 after).1,
      (runInputs r before).2 ++ (runInputs (runInputs r before).1 after).2) := by
  induction before generalizing r with
  | nil => rfl
  | cons input rest ih => rw [List.cons_append, runInputs_cons, runInputs_cons, ih, List.append_assoc]

theorem runInputs_cons_reset (r : Regs w) (rest : List PipelineInput) :
    runInputs r (.reset :: rest) = runInputs (Regs.reset w) rest :=
  rfl

/-- Commands alone are a run of 43_pipeline_commands.md R117. -/
theorem runInputs_commands (r : Regs w) (cmds : List Word) :
    runInputs r (cmds.map PipelineInput.command) = runWords r cmds := by
  induction cmds generalizing r with
  | nil => rfl
  | cons cmd rest ih => rw [List.map_cons, runInputs_cons, runWords_cons, inputEffect_command, ih]

end

/-! ### A pipeline among others -/

/-- What an interleaving holds for pipeline `k`, in order: its inputs, or its responses. -/
def ownPart {α : Type} (k : Nat) (labelled : List (Nat × α)) : List α :=
  (labelled.filter (fun c => c.1 == k)).map Prod.snd

section

variable {α : Type} {k j : Nat}

@[simp] theorem ownPart_nil : ownPart k ([] : List (Nat × α)) = [] := rfl

theorem ownPart_cons_self (a : α) (rest : List (Nat × α)) : ownPart k ((k, a) :: rest) = a :: ownPart k rest := by
  rw [ownPart, List.filter_cons_of_pos (by simp), List.map_cons, ownPart]

theorem ownPart_cons_of_ne (other : j ≠ k) (a : α) (rest : List (Nat × α)) :
    ownPart k ((j, a) :: rest) = ownPart k rest := by
  rw [ownPart, List.filter_cons_of_neg (by simpa using other), ownPart]

theorem ownPart_append (first second : List (Nat × α)) :
    ownPart k (first ++ second) = ownPart k first ++ ownPart k second := by
  rw [ownPart, List.filter_append, List.map_append, ownPart, ownPart]

/-- All of a list labelled `k` is pipeline `k`'s. -/
theorem ownPart_label_self {β : Type} (label : β → α) (items : List β) :
    ownPart k (items.map (fun q => (k, label q))) = items.map label := by
  induction items with
  | nil => rfl
  | cons q rest ih => rw [List.map_cons, ownPart_cons_self, ih, List.map_cons]

theorem ownPart_label_of_ne {β : Type} (other : j ≠ k) (label : β → α) (items : List β) :
    ownPart k (items.map (fun q => (j, label q))) = [] := by
  induction items with
  | nil => rfl
  | cons q rest ih => rw [List.map_cons, ownPart_cons_of_ne other, ih]

end

section

variable {fleet : List Pipeline} {k j : Nat} {p : Pipeline}

/-- Its own input moves pipeline `k` by the effect of that input. -/
theorem fleetExec_self (member : fleet[k]? = some p) (input : PipelineInput) :
    (fleetExec fleet k input).1[k]? = some ⟨p.width, (inputEffect p.regs input).1⟩ ∧
      ownPart k (fleetExec fleet k input).2 = (inputEffect p.regs input).2.toList.map (SizedResponse.mk p.width) := by
  obtain ⟨inRange, _⟩ := List.getElem?_eq_some_iff.mp member
  rw [fleetExec_of_some member]
  exact ⟨List.getElem?_set_self inRange, ownPart_label_self _ _⟩

/-- Another pipeline's input neither moves pipeline `k` nor makes it respond (60_exceptions.md R140). -/
theorem fleetExec_of_ne (other : j ≠ k) (fleet : List Pipeline) (input : PipelineInput) :
    (fleetExec fleet j input).1[k]? = fleet[k]? ∧ ownPart k (fleetExec fleet j input).2 = [] := by
  cases member : fleet[j]? with
  | none =>
    rw [fleetExec_of_none member]
    exact ⟨rfl, rfl⟩
  | some p =>
    rw [fleetExec_of_some member]
    exact ⟨List.getElem?_set_ne other, ownPart_label_of_ne other _ _⟩

/-- A pipeline ends where its own inputs alone lead it, by induction on the interleaving. -/
theorem fleetRun_of_some {inputs : List (Nat × PipelineInput)} (member : fleet[k]? = some p) :
    (fleetRun fleet inputs).1[k]? = some ⟨p.width, (runInputs p.regs (ownPart k inputs)).1⟩ ∧
      ownPart k (fleetRun fleet inputs).2 =
        (runInputs p.regs (ownPart k inputs)).2.map (SizedResponse.mk p.width) := by
  induction inputs generalizing fleet p with
  | nil => exact ⟨member, rfl⟩
  | cons labelled rest ih =>
    obtain ⟨j, input⟩ := labelled
    rw [fleetRun_cons, ownPart_append]
    rcases eq_or_ne j k with rfl | other
    · obtain ⟨moved, answered⟩ := fleetExec_self member input
      obtain ⟨regs, responses⟩ := ih moved
      rw [ownPart_cons_self, runInputs_cons, answered, responses, List.map_append]
      exact ⟨regs, rfl⟩
    · obtain ⟨stays, silent⟩ := fleetExec_of_ne other fleet input
      rw [ownPart_cons_of_ne other, silent, List.nil_append]
      exact ih (stays.trans member)

/-- An index that names no pipeline names none after any inputs, and nothing responds under it. -/
theorem fleetRun_of_none {inputs : List (Nat × PipelineInput)} (absent : fleet[k]? = none) :
    (fleetRun fleet inputs).1[k]? = none ∧ ownPart k (fleetRun fleet inputs).2 = [] := by
  induction inputs generalizing fleet with
  | nil => exact ⟨absent, rfl⟩
  | cons labelled rest ih =>
    obtain ⟨j, input⟩ := labelled
    rw [fleetRun_cons, ownPart_append]
    rcases eq_or_ne j k with rfl | other
    · rw [fleetExec_of_none absent, ownPart_nil, List.nil_append]
      exact ih absent
    · obtain ⟨stays, silent⟩ := fleetExec_of_ne other fleet input
      rw [silent, List.nil_append]
      exact ih (stays.trans absent)

end

/-! ### The statement -/

/-- Settles O53: the interleaving by `fleetRun_of_some` where `k` names a pipeline, and one pipeline's inputs cut at its
reset. -/
theorem instancesAreIndependent : Obligations.InstancesAreIndependent := by
  unfold Obligations.InstancesAreIndependent
  refine ⟨fun fleet inputs k => ?interleaving, fun _ r cmds => runInputs_commands r cmds,
    fun w r before after => ?reset⟩
  case interleaving =>
    cases member : fleet[k]? with
    | none => exact fleetRun_of_none member
    | some p => exact fleetRun_of_some member
  case reset => rw [runInputs_append, runInputs_cons_reset]

end Sys2Proof.Machine

/-! PROOFS. The clocked view: latency and idle cycles change no result (30_encoding.md section 1, 70_reset_and_hazards.md
R158), and a reset cycle begins a new run (R145, R146). -/

namespace Sys2Proof.Machine

section

variable {w : Nat}

/-! ### Slots and edges -/

/-- One slot at the front of the words that retire: an empty slot adds nothing to the run. -/
theorem runWords_filterMap_cons (r : Regs w) (slot : Option Word) (rest : List (Option Word)) :
    runWords r ((slot :: rest).filterMap id) =
      ((runWords (retireSlot r slot).1 (rest.filterMap id)).1,
        (retireSlot r slot).2.toList ++ (runWords (retireSlot r slot).1 (rest.filterMap id)).2) := by
  cases slot with
  | none => rfl
  | some cmd => exact runWords_cons r cmd (rest.filterMap id)

/-- Edges without reset push their slots through the pipeline: as many slots as edges retire, oldest first, and the rest
stay in it (log 9). -/
theorem clockRun_of_no_rst {ps : List Pins} (low : ∀ p ∈ ps, p.rst = false) (c : Clocked w) :
    (clockRun c ps).1.regs =
      (runWords c.regs (((c.pipe ++ ps.map Pins.accepted).take ps.length).filterMap id)).1 ∧
    (clockRun c ps).2 =
      (runWords c.regs (((c.pipe ++ ps.map Pins.accepted).take ps.length).filterMap id)).2 ∧
    (clockRun c ps).1.pipe = (c.pipe ++ ps.map Pins.accepted).drop ps.length := by
  induction ps generalizing c with
  | nil => exact ⟨rfl, rfl, (List.append_nil _).symm⟩
  | cons p rest ih =>
    obtain ⟨lowNow, lowLater⟩ := List.forall_mem_cons.mp low
    obtain ⟨slot, pipe, shifted, tick⟩ := clockTick_cases (c := c) lowNow
    have slots : c.pipe ++ (p :: rest).map Pins.accepted = slot :: (pipe ++ rest.map Pins.accepted) := by
      rw [List.map_cons, List.append_cons, shifted, List.cons_append]
    obtain ⟨regs, responses, left⟩ := ih lowLater (clockTick c p)
    rw [slots, List.length_cons, List.take_succ_cons, List.drop_succ_cons, runWords_filterMap_cons, clockRun_cons]
    rw [regs, responses, left, tick]
    exact ⟨rfl, rfl, rfl⟩

/-! ### Runs cut in two -/

theorem clockRun_append (c : Clocked w) (before after : List Pins) :
    clockRun c (before ++ after) = ((clockRun (clockRun c before).1 after).1,
      (clockRun c before).2 ++ (clockRun (clockRun c before).1 after).2) := by
  induction before generalizing c with
  | nil => rfl
  | cons p rest ih => rw [List.cons_append, clockRun_cons, clockRun_cons, ih, List.append_assoc]

theorem clockRun_pipe_length (c : Clocked w) (ps : List Pins) : (clockRun c ps).1.pipe.length = c.pipe.length := by
  induction ps generalizing c with
  | nil => rfl
  | cons p rest ih => rw [clockRun_cons, ih, clockTick_pipe_length]

/-- A reset cycle responds nothing and leaves nothing of what was before but the latency (70_reset_and_hazards.md R145,
R146). -/
theorem clockRun_cons_of_rst {p : Pins} (high : p.rst = true) (c : Clocked w) (rest : List Pins) :
    clockRun c (p :: rest) = clockRun (clockedReset w c.pipe.length) rest := by
  rw [clockRun_cons, clockTick_of_rst high]
  rfl

end

/-! ### The statements -/

/-- Settles O54: with `LATENCY` idle cycles at the end, exactly the slots of the pipeline and of the given cycles have
retired, and the idle ones are left. -/
theorem latencyChangesNothing : Obligations.LatencyChangesNothing := by
  unfold Obligations.LatencyChangesNothing
  intro w c ps low
  have lowAll : ∀ p ∈ ps ++ List.replicate c.pipe.length idlePins, p.rst = false := by
    intro p member
    rcases List.mem_append.mp member with given | idle
    · exact low p given
    · rw [List.eq_of_mem_replicate idle]; rfl
  have slots : c.pipe ++ (ps ++ List.replicate c.pipe.length idlePins).map Pins.accepted =
      (c.pipe ++ ps.map Pins.accepted) ++ List.replicate c.pipe.length none := by
    rw [List.map_append, List.map_replicate, List.append_assoc]; rfl
  have edges : (ps ++ List.replicate c.pipe.length idlePins).length = (c.pipe ++ ps.map Pins.accepted).length := by
    simp only [List.length_append, List.length_replicate, List.length_map, Nat.add_comm]
  have words : (c.pipe ++ ps.map Pins.accepted).filterMap id = c.pipe.filterMap id ++ ps.filterMap Pins.accepted := by
    rw [List.filterMap_append, List.filterMap_map, Function.id_comp]
  have run := clockRun_of_no_rst lowAll c
  rwa [slots, edges, List.take_left, List.drop_left, words] at run

/-- Settles O55: the run is cut before the reset cycle, which keeps the latency alone. -/
theorem resetBeginsNewRun : Obligations.ResetBeginsNewRun := by
  unfold Obligations.ResetBeginsNewRun
  intro w c before after p high
  rw [clockRun_append, clockRun_cons_of_rst high, clockRun_pipe_length]

end Sys2Proof.Machine
